-- ==== Sys2Proof/Word.lean ====
section
/-! DEFINITION. The vector types of the machine: bytes, instruction words, indices, line numbers (R8, R82, R30, R81). -/

namespace Sys2Proof

/-- A byte: one register, one data-memory cell, one immediate (R8). Bit 0 is the least significant bit (R7). -/
abbrev Byte := BitVec 8

/-- One binary instruction word (R82; parameter `IWORD`, R6). -/
abbrev IWord := BitVec 32

/-- An instruction index, the program counter, a branch target (R30, R93; parameter `IDXW`, R6). -/
abbrev Index := BitVec 16

/-- A source line number tag (R81; parameter `LNW`, R6). -/
abbrev LineNo := BitVec 16

end Sys2Proof
end

