-- ==== Sys2Proof/Config.lean ====
section
/-! DEFINITION. What is fixed for the machine (R6, R47), the one open parameter's type (R116) and the two free values (U13). -/

namespace Sys2Proof

/-- What the assembler does with an immediate outside [-128, 127]: the open parameter `imm_out_of_range` (R6, R116, D8).
It is an argument of every assembler function. -/
inductive ImmPolicy where
  | reject
  | wrap
  deriving DecidableEq, Repr

namespace Config

/-- `COST_SIMPLE` (R6, R260): MOV, ADD, ADDI, CMP, JE taken or not, JMP. -/
def costSimple : Nat := 1

/-- `COST_COLD` (R6, R54, R260): a LD or ST of an address not yet touched. -/
def costCold : Nat := 50

/-- `COST_WARM` (R6, R54, R260): a LD or ST of an address already touched. -/
def costWarm : Nat := 2

/-- `MEMSIZE` (R6, R41): data addresses are 0..255. -/
def memSize : Nat := 256

/-- `MAXLEN` (R6): the greatest program length. -/
def maxLen : Nat := 65535

/-- What a data byte that no instruction has written reads as (R22, R250). -/
def memInit : Byte := 0x00#8

/-- The default of `imm_out_of_range` (R6, R116). -/
def immOutOfRange : ImmPolicy := .reject

/-- FREE VALUE. The marker the rejection message is prefixed with: the source does not give its text (R237, U13; log 12). -/
opaque rejectionMarker : List Char

/-- FREE VALUE. One less than the exit status of a rejection: U13 leaves the status open, "status ≠ 0" the only fact (log 12). -/
opaque rejectionStatusLessOne : Nat

end Config

end Sys2Proof
end

