-- ==== Sys2Proof/Syntax.lean ====
section
/-! DEFINITION. The syntax: registers, the eight instructions, the source's instruction record (R80), entries and images (R43, R81). -/

namespace Sys2Proof

/-- A general register by its index; `Rk` of the assembly is index `k - 1` (R23). There is no index 6 or 7. -/
abbrev Reg := Fin 6

/-- The eight executable instructions (R85), one constructor per row of spec/opcode_table.json. Register operands stand in
text order, which is also the field order `ra`, `rb` (R83). -/
inductive Instr where
  /-- `MOV Rn, num` (R150). -/
  | mov (rd : Reg) (imm : Byte)
  /-- `ADD Rn, Rm` (R160). -/
  | add (ra rb : Reg)
  /-- `ADD Rn, num` (R161); the spec's mnemonic is ADDI (R86). -/
  | addi (rd : Reg) (imm : Byte)
  /-- `CMP Rn, Rm` (R170). -/
  | cmp (ra rb : Reg)
  /-- `JE addr` (R186); `tgt` is a line number before the resolver has run, an index in 0..LEN after (R93). -/
  | je (tgt : Index)
  /-- `JMP addr` (R187). -/
  | jmp (tgt : Index)
  /-- `LD Rn, [Rm]` (R200): `ra` the destination, `rb` the address register. -/
  | ld (ra rb : Reg)
  /-- `ST [Rm], Rn` (R201): `ra` the address register, `rb` the data register. -/
  | st (ra rb : Reg)
  deriving DecidableEq, Repr

/-- The nine values of the record's `opcode` field (R80, C7). `invalid` is never executed (R90). -/
inductive Opcode where
  | move
  | addRegister
  | addImmediate
  | compare
  | jumpIfEqual
  | jump
  | load
  | store
  | invalid
  deriving DecidableEq, Repr

/-- The source's Instruction record (R80), less `source_line_number`, which is the entry's tag (R81), and `raw_text`, which has
no hardware counterpart (R43). A register field is an index in 0..5 or -1 for "unset". -/
structure InstrRecord where
  opcode : Opcode
  dest : Int
  src : Int
  immediate : Int
  branchTarget : Nat
  deriving DecidableEq, Repr

/-- Entry `i` of a program: the pair (`IMEM[i]`, `LNUM[i]`) (R43, R81). -/
structure Entry where
  word : IWord
  line : LineNo
  deriving DecidableEq, Repr

/-- A program image: its entries in index order; `LEN` is how many there are (R43). -/
abbrev Image := List Entry

/-- A program as the host loads it: the targets of its JE and JMP words are source line numbers (R45, R191). -/
structure UnresolvedProgram where
  entries : Image
  deriving DecidableEq, Repr

/-- A program as the resolver leaves it: the targets of its JE and JMP words are indices or the sentinel `LEN` (R45, R191). The
run phase takes only this type. That its words decode and its targets are in range is `Image.resolvedOk`, which the invariant
states of every run (log 21). -/
structure ResolvedProgram where
  entries : Image
  deriving DecidableEq, Repr

/-- What the instruction store holds: one of the two forms (R191), on the same storage (R43, R180). -/
inductive Program where
  | unresolved (p : UnresolvedProgram)
  | resolved (p : ResolvedProgram)
  deriving DecidableEq, Repr

/-- An instruction before resolution: a branch target is a line number (R191). -/
structure UnresolvedInstr where
  instr : Instr
  deriving DecidableEq, Repr

/-- A branch target after resolution, in a program of `len` instructions: "a validated index or termination sentinel" (R191, R183). -/
inductive ResolvedTarget (len : Nat) where
  | index (i : Fin len)
  | sentinel
  deriving DecidableEq, Repr

end Sys2Proof
end

