-- ==== Sys2Proof/WellFormed.lean ====
section
/-! DEFINITION. Well-formedness: of the source's record (R80), of an instruction in a resolved program (R183), of an image's length (R6).
At the level of the word every `Instr` is well-formed: its register fields are indices 0..5 by their type (R23, R90). -/

namespace Sys2Proof

/-- A register field that the opcode uses: an index in 0..5 (R80). -/
def InstrRecord.regSet (n : Int) : Bool := decide (0 ≤ n) && decide (n ≤ 5)

/-- A register field the opcode does not use: "unset" (-1) (R80). -/
def InstrRecord.regUnset (n : Int) : Bool := n == -1

/-- An immediate: a signed integer in [-128, 127] (R80). -/
def InstrRecord.immOk (n : Int) : Bool := decide (-128 ≤ n) && decide (n ≤ 127)

/-- A branch target: a 16-bit unsigned number (R82, R93). -/
def InstrRecord.targetOk (n : Nat) : Bool := decide (n ≤ 65535)

/-- Each opcode uses exactly the fields that R80 and R84 give it; `invalid` is no well-formed instruction. -/
def InstrRecord.wellFormed (r : InstrRecord) : Bool :=
  match r.opcode with
  | .move => regSet r.dest && regUnset r.src && immOk r.immediate
  | .addRegister => regSet r.dest && regSet r.src
  | .addImmediate => regSet r.dest && regUnset r.src && immOk r.immediate
  | .compare => regSet r.dest && regSet r.src
  | .jumpIfEqual => regUnset r.dest && regUnset r.src && targetOk r.branchTarget
  | .jump => regUnset r.dest && regUnset r.src && targetOk r.branchTarget
  | .load => regSet r.dest && regSet r.src
  | .store => regSet r.dest && regSet r.src
  | .invalid => false

/-- An instruction is well-formed in a RESOLVED program of `len` instructions when its branch target, if it has one, is an
index or the termination sentinel, that is, in 0..`len` (R183). -/
def Instr.wellFormed (len : Nat) (i : Instr) : Bool :=
  match i with
  | .mov _ _ => true
  | .add _ _ => true
  | .addi _ _ => true
  | .cmp _ _ => true
  | .je tgt => decide (tgt.toNat ≤ len)
  | .jmp tgt => decide (tgt.toNat ≤ len)
  | .ld _ _ => true
  | .st _ _ => true

/-- An instruction after resolution, in a program of `len` instructions, with the validity of its target (R191, R183). -/
structure ResolvedInstr (len : Nat) where
  instr : Instr
  ok : instr.wellFormed len = true
  deriving DecidableEq, Repr

/-- `LEN` ≤ `MAXLEN` (R6); a longer program has no image (U9). -/
def Image.lengthOk (img : Image) : Bool := decide (img.length ≤ Config.maxLen)

end Sys2Proof
end

