-- ==== Sys2Proof/Decode.lean ====
section
/-! DEFINITION. The decoder, total on every 32-bit word and rejecting by name (R82, R85, R87, R90), then the encoder (R82, R84, R121), the
opcode map as a table (R85), and the source's record view of an instruction (R80, R84, R87, R92). -/

namespace Sys2Proof

/-- Why a word is Invalid: the three grounds of R90. A word that is Invalid on several grounds is reported once and with no
sub-cause (R225); the name is for the reader (log 9). -/
inductive InvalidReason where
  /-- `op` is 0x8 to 0xF. -/
  | reservedOp
  /-- A must-be-zero bit of the word's format is 1. -/
  | mustBeZero
  /-- A register field of the word's format is 6 or 7. -/
  | badRegister
  deriving DecidableEq, Repr

/-! ### The fields of a word (R82) -/

/-- `op` = w[31:28]. -/
def opField (w : IWord) : BitVec 4 := w.extractLsb' 28 4

/-- `ra`, or `rd` in format RI, = w[27:25]. -/
def raField (w : IWord) : BitVec 3 := w.extractLsb' 25 3

/-- `rb` = w[24:22]. -/
def rbField (w : IWord) : BitVec 3 := w.extractLsb' 22 3

/-- `imm8` = w[7:0]. -/
def immField (w : IWord) : Byte := w.extractLsb' 0 8

/-- `tgt` = w[15:0]. -/
def tgtField (w : IWord) : Index := w.extractLsb' 0 16

/-- The must-be-zero bits of format RI, w[24:8]. -/
def mbzRI (w : IWord) : BitVec 17 := w.extractLsb' 8 17

/-- The must-be-zero bits of format RR, w[21:0]. -/
def mbzRR (w : IWord) : BitVec 22 := w.extractLsb' 0 22

/-- The must-be-zero bits of format J, w[27:16]. -/
def mbzJ (w : IWord) : BitVec 12 := w.extractLsb' 16 12

/-- The register a 3-bit field names; 6 and 7 name none (R23, R90). -/
def regOf (f : BitVec 3) : Option Reg :=
  if h : f.toNat < 6 then some ⟨f.toNat, h⟩ else none

/-! ### The decoder (R87) -/

/-- Format RI (R82): must-be-zero bits 24:8, then the register field. -/
def decodeRI (mk : Reg → Byte → Instr) (w : IWord) : Except InvalidReason Instr :=
  if mbzRI w = 0 then
    match regOf (raField w) with
    | some rd => .ok (mk rd (immField w))
    | none => .error .badRegister
  else .error .mustBeZero

/-- Format RR (R82): must-be-zero bits 21:0, then both register fields. -/
def decodeRR (mk : Reg → Reg → Instr) (w : IWord) : Except InvalidReason Instr :=
  if mbzRR w = 0 then
    match regOf (raField w), regOf (rbField w) with
    | some ra, some rb => .ok (mk ra rb)
    | _, _ => .error .badRegister
  else .error .mustBeZero

/-- Format J (R82): must-be-zero bits 27:16. -/
def decodeJ (mk : Index → Instr) (w : IWord) : Except InvalidReason Instr :=
  if mbzJ w = 0 then .ok (mk (tgtField w)) else .error .mustBeZero

/-- The format and constructor of each opcode number (R85, R87); `op` = 0x8 to 0xF is reserved (R90). -/
def decodeOp (op : Nat) (w : IWord) : Except InvalidReason Instr :=
  match op with
  | 0 => decodeRI .mov w
  | 1 => decodeRR .add w
  | 2 => decodeRI .addi w
  | 3 => decodeRR .cmp w
  | 4 => decodeJ .je w
  | 5 => decodeJ .jmp w
  | 6 => decodeRR .ld w
  | 7 => decodeRR .st w
  | _ => .error .reservedOp

/-- The decoder (R87): every word is one of the eight instructions or Invalid, never a neighbour (R90). -/
def decode (w : IWord) : Except InvalidReason Instr := decodeOp (opField w).toNat w

/-- The word is Invalid (R90). -/
def isInvalid (w : IWord) : Bool :=
  match decode w with
  | .ok _ => false
  | .error _ => true

/-- The instruction word of a table word: its `nbits` low bits, every bit above them 0. The word is whole; it has no byte order (R55). -/
def tableWord (nbits w : Nat) : IWord := BitVec.ofNat 32 (w % 2 ^ nbits)

/-- What the decoder reads from a word numbered as spec/opcode_table.json numbers it. -/
def decodeTableWord (nbits w : Nat) : Option Instr :=
  match decode (tableWord nbits w) with
  | .ok i => some i
  | .error _ => none

/-! ### The encoder (R82, R84, R121) -/

/-- Format RI: `op` 31:28, `rd` 27:25, `imm8` 7:0; the register field in place is index × 0x02000000 (R121). -/
def encodeRI (op : Nat) (rd : Reg) (imm : Byte) : IWord :=
  BitVec.ofNat 32 (op * 0x10000000 + rd.val * 0x02000000 + imm.toNat)

/-- Format RR: `op` 31:28, `ra` 27:25, `rb` 24:22; `rb` in place is index × 0x00400000 (R121). -/
def encodeRR (op : Nat) (ra rb : Reg) : IWord :=
  BitVec.ofNat 32 (op * 0x10000000 + ra.val * 0x02000000 + rb.val * 0x00400000)

/-- Format J: `op` 31:28, `tgt` 15:0. -/
def encodeJ (op : Nat) (tgt : Index) : IWord :=
  BitVec.ofNat 32 (op * 0x10000000 + tgt.toNat)

/-- The opcode number of an instruction (R85). -/
def Instr.opNumber (i : Instr) : Nat :=
  match i with
  | .mov _ _ => 0
  | .add _ _ => 1
  | .addi _ _ => 2
  | .cmp _ _ => 3
  | .je _ => 4
  | .jmp _ => 5
  | .ld _ _ => 6
  | .st _ _ => 7

/-- The word of an instruction (R82, R85). -/
def encode (i : Instr) : IWord :=
  match i with
  | .mov rd imm => encodeRI 0 rd imm
  | .add ra rb => encodeRR 1 ra rb
  | .addi rd imm => encodeRI 2 rd imm
  | .cmp ra rb => encodeRR 3 ra rb
  | .je tgt => encodeJ 4 tgt
  | .jmp tgt => encodeJ 5 tgt
  | .ld ra rb => encodeRR 6 ra rb
  | .st ra rb => encodeRR 7 ra rb

/-! ### The opcode map as a table (R85) -/

/-- One row of the map: the mnemonic, `match` and `mask`. -/
structure OpcodeRow where
  mnemonic : String
  matchBits : IWord
  mask : IWord
  deriving DecidableEq, Repr

/-- The eight rows of R85, in the order of `op`. -/
def opcodeRows : List OpcodeRow :=
  [⟨"MOV", 0x00000000#32, 0xF1FFFF00#32⟩,
   ⟨"ADD", 0x10000000#32, 0xF03FFFFF#32⟩,
   ⟨"ADDI", 0x20000000#32, 0xF1FFFF00#32⟩,
   ⟨"CMP", 0x30000000#32, 0xF03FFFFF#32⟩,
   ⟨"JE", 0x40000000#32, 0xFFFF0000#32⟩,
   ⟨"JMP", 0x50000000#32, 0xFFFF0000#32⟩,
   ⟨"LD", 0x60000000#32, 0xF03FFFFF#32⟩,
   ⟨"ST", 0x70000000#32, 0xF03FFFFF#32⟩]

/-- `w & mask = match` (R85). -/
def OpcodeRow.selects (r : OpcodeRow) (w : IWord) : Bool := (w &&& r.mask) == r.matchBits

/-- The row of an instruction. -/
def Instr.row (i : Instr) : OpcodeRow :=
  match i with
  | .mov _ _ => ⟨"MOV", 0x00000000#32, 0xF1FFFF00#32⟩
  | .add _ _ => ⟨"ADD", 0x10000000#32, 0xF03FFFFF#32⟩
  | .addi _ _ => ⟨"ADDI", 0x20000000#32, 0xF1FFFF00#32⟩
  | .cmp _ _ => ⟨"CMP", 0x30000000#32, 0xF03FFFFF#32⟩
  | .je _ => ⟨"JE", 0x40000000#32, 0xFFFF0000#32⟩
  | .jmp _ => ⟨"JMP", 0x50000000#32, 0xFFFF0000#32⟩
  | .ld _ _ => ⟨"LD", 0x60000000#32, 0xF03FFFFF#32⟩
  | .st _ _ => ⟨"ST", 0x70000000#32, 0xF03FFFFF#32⟩

/-! ### The record view (R80, R84, R87, R92) -/

/-- `byte(n)` (R8): the byte whose unsigned reading is `n mod 256`. -/
def byteOfInt (n : Int) : Byte := BitVec.ofInt 8 n

/-- `u8(b)`, the unsigned reading (R8). -/
def u8 (b : Byte) : Nat := b.toNat

/-- `s8(b)`, the signed reading (R8). -/
def s8 (b : Byte) : Int := if u8 b < 128 then (u8 b : Int) else (u8 b : Int) - 256

/-- The record of an instruction: which record field each operand fills (R84), `immediate = s8(imm8)` (R92). DESIGN CHOICE (log 20):
where the opcode gives `immediate` or `branch_target` no meaning, R80 gives it no value, and the model puts 0. -/
def Instr.toRecord (i : Instr) : InstrRecord :=
  match i with
  | .mov rd imm => ⟨.move, (rd.val : Int), -1, s8 imm, 0⟩
  | .add ra rb => ⟨.addRegister, (ra.val : Int), (rb.val : Int), 0, 0⟩
  | .addi rd imm => ⟨.addImmediate, (rd.val : Int), -1, s8 imm, 0⟩
  | .cmp ra rb => ⟨.compare, (ra.val : Int), (rb.val : Int), 0, 0⟩
  | .je tgt => ⟨.jumpIfEqual, -1, -1, 0, tgt.toNat⟩
  | .jmp tgt => ⟨.jump, -1, -1, 0, tgt.toNat⟩
  | .ld ra rb => ⟨.load, (ra.val : Int), (rb.val : Int), 0, 0⟩
  | .st ra rb => ⟨.store, (ra.val : Int), (rb.val : Int), 0, 0⟩

/-- The record of an Invalid word. DESIGN CHOICE (log 20): R87 gives it no field but `opcode`; the model puts "unset" in the register
fields and 0 in `immediate` and `branch_target`. -/
def InstrRecord.ofInvalid : InstrRecord := ⟨.invalid, -1, -1, 0, 0⟩

/-- The decoder's answer as a record: total, with `invalid` one of its answers (R87). -/
def decodeRecord (w : IWord) : InstrRecord :=
  match decode w with
  | .ok i => i.toRecord
  | .error _ => InstrRecord.ofInvalid

/-- The register a record's register field names. -/
def recordReg (n : Int) : Option Reg :=
  if h : 0 ≤ n ∧ n < 6 then some ⟨n.toNat, by omega⟩ else none

/-- The instruction of a well-formed record, `imm8 = byte(immediate)` (R92); none of any other. -/
def InstrRecord.toInstr (r : InstrRecord) : Option Instr :=
  if r.wellFormed then
    match r.opcode, recordReg r.dest, recordReg r.src with
    | .move, some rd, _ => some (.mov rd (byteOfInt r.immediate))
    | .addRegister, some ra, some rb => some (.add ra rb)
    | .addImmediate, some rd, _ => some (.addi rd (byteOfInt r.immediate))
    | .compare, some ra, some rb => some (.cmp ra rb)
    | .jumpIfEqual, _, _ => some (.je (BitVec.ofNat 16 r.branchTarget))
    | .jump, _, _ => some (.jmp (BitVec.ofNat 16 r.branchTarget))
    | .load, some ra, some rb => some (.ld ra rb)
    | .store, some ra, some rb => some (.st ra rb)
    | _, _, _ => none
  else none

end Sys2Proof
end

