-- ==== Sys2Proof/Machine/State.lean ====
section
/-! DEFINITION. The state of the machine (R20), its reset value (R250), the outcomes other than a next state, and the host's inputs (R235). -/

namespace Sys2Proof.Machine

/-- The four values of `status` (R40). -/
inductive Status where
  | idle
  | running
  | halted
  | rejected
  deriving DecidableEq, Repr

/-- The complete state (R20). Plain data. -/
@[ext]
structure State where
  /-- `x[0..5]`: R1 to R6 (R23). -/
  regs : Vector Byte 6
  /-- The index of the next instruction to fetch (R27, R30). -/
  pc : Index
  /-- The compare flag, `last_compare_equal` (R31). -/
  eq : Bool
  /-- Data memory (R41): canonical (address, byte) pairs, addresses rising, no byte equal to `Config.memInit`. -/
  mem : List Host.Cell
  /-- The addresses whose `touched` flag is true (R42), rising. -/
  touched : List Nat
  /-- `instructions_executed` (R34). -/
  instret : Nat
  /-- `cycles` (R35). -/
  cycles : Nat
  /-- `local_hits` (R36). -/
  localHits : Nat
  /-- `load_store_count` (R37). -/
  ldst : Nat
  /-- `IMEM`, `LNUM` and `LEN` (R43): entry `i` is (`IMEM[i]`, `LNUM[i]`), `LEN` is the number of entries. The constructor says whether
  the targets are line numbers or resolved (R45, R191; log 21). -/
  program : Program
  /-- `status` (R40). -/
  status : Status
  /-- `rej_index`, meaningful only while `status` is `rejected` (R20, R221). -/
  rejIndex : Nat
  /-- THE MODEL'S OWN: the host's start, given and not yet acted on (the event "host start" of R40; log 4). -/
  startPending : Bool
  deriving DecidableEq, Repr

/-- Why the machine stops with a fault. -/
inductive Fault where
  /-- Raised by the run phase's fetch (`runStep`) when the word at `pc` is Invalid, which R88 shows cannot occur in a run; U7 asks
  that the arm be a fault. SAFE: the machine stops where the spec has no behaviour (log 8). -/
  | invalidWord
  /-- Raised by `step` when the instruction store is not in the form that the phase takes: unresolved while Running, or already resolved
  when the start is acted on. R45 and R184 exclude both, and no reachable state is one of these. SAFE: the machine stops where the
  spec has no behaviour (log 21). -/
  | wrongForm
  deriving DecidableEq, Repr

/-- Why the model gives no meaning. -/
inductive Refusal where
  /-- Raised by `exec` for an instruction that has no meaning yet; no arm does. SAFE. -/
  | notModelled (mnemonic : String)
  /-- Raised by `hostLoad` for an image of more than 65535 entries, which U9 says to refuse: it has no image. SAFE. No step raises it. -/
  | imageTooLong
  deriving DecidableEq, Repr

/-- What the host does to the machine (R235). -/
inductive HostInput where
  /-- The reset input (R40, first row). -/
  | reset
  /-- The complete image written, in whatever order of single writes (R235, R253 step 2; log 3). -/
  | load (img : Image)
  /-- The start (R40, R253). -/
  | start
  deriving DecidableEq, Repr

/-- One event of the machine with its host: the machine takes a step of its own, or the host does something. -/
inductive Event where
  | clock
  | host (input : HostInput)
  deriving DecidableEq, Repr

/-- The machine right after reset (R20, R250). The spec leaves `rej_index` and the image unspecified there: 0 and no entry
are the model's choice (log 1, log 2). -/
def State.reset : State where
  regs := Vector.replicate 6 0x00#8
  pc := 0#16
  eq := false
  mem := []
  touched := []
  instret := 0
  cycles := 0
  localHits := 0
  ldst := 0
  program := .unresolved ⟨[]⟩
  status := .idle
  rejIndex := 0
  startPending := false

end Sys2Proof.Machine
end

