-- ==== Sys2Proof/Machine/Ops.lean ====
section
/-! DEFINITION. The named operations over registers, memory, the `touched` flags, the counters and the program counter, and `raise Malformed`,
the machine's one exception (R221, R226). There is no return from it (R227): only the reset input leaves `rejected`. -/

namespace Sys2Proof.Machine

/-! ### Memory (R41, R203) -/

/-- The byte at an address of a memory: an unlisted address reads `Config.memInit` (R22). -/
def Memory.read (m : List Host.Cell) (a : Nat) : Byte :=
  match m with
  | [] => Config.memInit
  | (b, u) :: rest => if b = a then u else Memory.read rest a

/-- One byte written, the canonical form kept: a byte equal to what an unlisted address reads as is not listed. -/
def Memory.write (m : List Host.Cell) (a : Nat) (v : Byte) : List Host.Cell :=
  match m with
  | [] => if v = Config.memInit then [] else [(a, v)]
  | (b, u) :: rest =>
    if a < b then (if v = Config.memInit then (b, u) :: rest else (a, v) :: (b, u) :: rest)
    else if a = b then (if v = Config.memInit then rest else (a, v) :: rest)
    else (b, u) :: Memory.write rest a v

/-- The canonical form from address `lo` on: addresses rising, inside the space (R41), no byte equal to `Config.memInit`. -/
def Memory.wfFrom (lo : Nat) (m : List Host.Cell) : Bool :=
  match m with
  | [] => true
  | (b, u) :: rest =>
    decide (lo ≤ b) && decide (b < Config.memSize) && decide (u ≠ Config.memInit) && Memory.wfFrom (b + 1) rest

/-- The canonical form of data memory. -/
def Memory.wf (m : List Host.Cell) : Bool := Memory.wfFrom 0 m

/-! ### The `touched` flags (R42) -/

/-- The flag of an address. -/
def Touched.flag (t : List Nat) (a : Nat) : Bool :=
  match t with
  | [] => false
  | b :: rest => if b = a then true else Touched.flag rest a

/-- The flag of an address set; the list stays rising and without repeats. -/
def Touched.set (t : List Nat) (a : Nat) : List Nat :=
  match t with
  | [] => [a]
  | b :: rest =>
    if a < b then a :: b :: rest
    else if a = b then b :: rest
    else b :: Touched.set rest a

/-- The canonical form from address `lo` on. -/
def Touched.wfFrom (lo : Nat) (t : List Nat) : Bool :=
  match t with
  | [] => true
  | b :: rest => decide (lo ≤ b) && decide (b < Config.memSize) && Touched.wfFrom (b + 1) rest

/-- The canonical form of the flags: rising addresses of the data space. -/
def Touched.wf (t : List Nat) : Bool := Touched.wfFrom 0 t

/-! ### Views of the instruction store (R43) -/

/-- The entries of a program of either form: they stand on the same storage (R43). -/
def Program.entries (p : Program) : Image :=
  match p with
  | .unresolved q => q.entries
  | .resolved q => q.entries

/-- The program is in resolved form (R191). -/
def Program.isResolved (p : Program) : Bool :=
  match p with
  | .unresolved _ => false
  | .resolved _ => true

/-- The entries of the instruction store, whichever its form (R43). -/
def State.image (s : State) : Image := Program.entries s.program

/-- `LEN` (R20). -/
def State.len (s : State) : Nat := s.image.length

/-- `IMEM[i]` (R43). -/
def State.imem (s : State) (i : Nat) : Option IWord :=
  match s.image[i]? with
  | some e => some e.word
  | none => none

/-- `LNUM[i]` (R43). -/
def State.lnum (s : State) (i : Nat) : Option LineNo :=
  match s.image[i]? with
  | some e => some e.line
  | none => none

/-- The cause code (R222): 1 Malformed, 0 none. It follows from `status`; no register holds it (R226). -/
def State.causeCode (s : State) : Nat :=
  match s.status with
  | .rejected => 1
  | .idle => 0
  | .running => 0
  | .halted => 0

/-! ### Registers, memory, counters, program counter (R9) -/

/-- `x[r]` (R9). -/
def State.readReg (s : State) (r : Reg) : Byte := s.regs[r.val]

/-- `x[r] <- v` (R9). -/
def State.writeReg (s : State) (r : Reg) (v : Byte) : State := { s with regs := s.regs.set r.val v }

/-- `MemRead(a, 1)` (R203). -/
def State.memRead (s : State) (a : Nat) : Byte := Memory.read s.mem a

/-- `MemWrite(a, 1, v)` (R203). -/
def State.memWrite (s : State) (a : Nat) (v : Byte) : State := { s with mem := Memory.write s.mem a v }

/-- `touched[a]` (R42). -/
def State.isTouched (s : State) (a : Nat) : Bool := Touched.flag s.touched a

/-- `cycles <- cycles + n` (R35). -/
def State.charge (s : State) (n : Nat) : State := { s with cycles := s.cycles + n }

/-- `Touch(a)` (R54): `ldst` counts; a warm address costs 2 and is a hit, a cold one costs 50 and becomes warm. -/
def State.touch (s : State) (a : Nat) : State :=
  if s.isTouched a then
    { s with ldst := s.ldst + 1, cycles := s.cycles + Config.costWarm, localHits := s.localHits + 1 }
  else
    { s with ldst := s.ldst + 1, cycles := s.cycles + Config.costCold, touched := Touched.set s.touched a }

/-- `pc <- pc + 1` (R28). It is computed only from `pc` < `LEN` ≤ 65535, so it does not wrap in a run (R30). -/
def State.advance (s : State) : State := { s with pc := s.pc + 1#16 }

/-- `pc <- tgt` (R28). -/
def State.jump (s : State) (tgt : Index) : State := { s with pc := tgt }

/-- `instret <- instret + 1`, at every fetch, before the instruction executes (R34, R131). -/
def State.countFetch (s : State) : State := { s with instret := s.instret + 1 }

/-- `status <- Halted`; everything else keeps its value (R135). -/
def State.halt (s : State) : State := { s with status := .halted }

/-- The host's start has been acted on (log 4). -/
def State.takeStart (s : State) : State := { s with startPending := false }

/-- `raise Malformed(i)` (R221, R226): `status` and `rej_index` are written and nothing else; no handler, no saved pc or status. -/
def State.raiseMalformed (s : State) (i : Nat) : State := { s with status := .rejected, rejIndex := i }

end Sys2Proof.Machine
end

