-- ==== Sys2Proof/Machine/Branch.lean ====
section
/-! DEFINITION. The branch resolver (R180 to R185) and the meanings of JE and JMP (R186, R187). -/

namespace Sys2Proof.Machine

/-- The least index from `i` on whose entry carries line number `l` (R180, R181). -/
def lineIndexFrom (i : Nat) (img : Image) (l : LineNo) : Option Nat :=
  match img with
  | [] => none
  | e :: rest => if e.line = l then some i else lineIndexFrom (i + 1) rest l

/-- The target that replaces line number `l`: the least matching index (R181), or the termination sentinel (R182). A match is
always an index of the program, so the inner `else` is never taken. -/
def resolveTarget (img : Image) (l : LineNo) : ResolvedTarget img.length :=
  match lineIndexFrom 0 img l with
  | some j => if h : j < img.length then .index ⟨j, h⟩ else .sentinel
  | none => .sentinel

/-- The number that a resolved target puts in the `tgt` field: the index, or `LEN` for the sentinel (R180, R183). -/
def targetIndex {len : Nat} (t : ResolvedTarget len) : Index :=
  match t with
  | .index i => BitVec.ofNat 16 i.val
  | .sentinel => BitVec.ofNat 16 len

/-- A resolved target is in 0..`LEN` (R183). -/
theorem targetIndex_le {len : Nat} (t : ResolvedTarget len) : (targetIndex t).toNat ≤ len := by
  cases t with
  | index i => exact (Nat.mod_le _ _).trans i.isLt.le
  | sentinel => exact Nat.mod_le _ _

/-- The resolver on one instruction: the only maker of a resolved one (R191). -/
def resolveInstr (img : Image) (i : UnresolvedInstr) : ResolvedInstr img.length :=
  match i with
  | ⟨.mov rd imm⟩ => ⟨.mov rd imm, rfl⟩
  | ⟨.add ra rb⟩ => ⟨.add ra rb, rfl⟩
  | ⟨.addi rd imm⟩ => ⟨.addi rd imm, rfl⟩
  | ⟨.cmp ra rb⟩ => ⟨.cmp ra rb, rfl⟩
  | ⟨.je l⟩ => ⟨.je (targetIndex (resolveTarget img l)), decide_eq_true (targetIndex_le _)⟩
  | ⟨.jmp l⟩ => ⟨.jmp (targetIndex (resolveTarget img l)), decide_eq_true (targetIndex_le _)⟩
  | ⟨.ld ra rb⟩ => ⟨.ld ra rb, rfl⟩
  | ⟨.st ra rb⟩ => ⟨.st ra rb, rfl⟩

/-- The word is a JE or JMP: the resolver looks at `op` only (R180). -/
def isBranchWord (w : IWord) : Bool := opField w == 0x4#4 || opField w == 0x5#4

/-- A word with its `tgt` field, bits 15:0, replaced and every other bit kept (R180, R185). -/
def withTarget (w : IWord) (t : Index) : IWord := BitVec.ofNat 32 (w.toNat / 2 ^ 16 * 2 ^ 16 + t.toNat)

/-- One word resolved: a JE or JMP gets its target, every other word is left as it is (R180). -/
def resolveWord (img : Image) (w : IWord) : IWord :=
  if isBranchWord w then withTarget w (targetIndex (resolveTarget img (tgtField w))) else w

/-- The resolver (R180): one pass over the whole image; the tags are only read (R185). It takes the unresolved form and gives the
resolved one, so it cannot be run on its own result (R184, R191). -/
def resolve (p : UnresolvedProgram) : ResolvedProgram :=
  ⟨p.entries.map fun e => { e with word := resolveWord p.entries e.word }⟩

/-- `JE addr` (R186): one cycle whether taken or not; `eq` is read and not changed. -/
def execJe (tgt : Index) (s : State) : Host.Outcome State Fault Refusal :=
  .next (if s.eq then (s.charge Config.costSimple).jump tgt else (s.charge Config.costSimple).advance)

/-- `JMP addr` (R187). -/
def execJmp (tgt : Index) (s : State) : Host.Outcome State Fault Refusal :=
  .next ((s.charge Config.costSimple).jump tgt)

end Sys2Proof.Machine
end

