-- ==== Sys2Proof/Machine/Loader.lean ====
section
/-! DEFINITION. Load-time validation (R221) and what the hardware does on the host's start: validate, then resolve once, then run (R40, R253). -/

namespace Sys2Proof.Machine

/-- The lowest index from `i` on whose word is Invalid (R221, R225). -/
def firstInvalidFrom (i : Nat) (img : Image) : Option Nat :=
  match img with
  | [] => none
  | e :: rest => if isInvalid e.word then some i else firstInvalidFrom (i + 1) rest

/-- Validation of the whole image, reached or not (R221): the lowest Invalid index, if there is one. -/
def firstInvalid (img : Image) : Option Nat := firstInvalidFrom 0 img

/-- The Idle row of R40 on the host's start: rejection with nothing executed and nothing resolved, or the resolver's one pass
and the run phase. Neither charges a cycle (R185, R260). -/
def startRun (p : UnresolvedProgram) (s : State) : State :=
  match firstInvalid p.entries with
  | some i => s.takeStart.raiseMalformed i
  | none => { s.takeStart with program := .resolved (resolve p), status := .running }

/-- One step while `status = Idle`: the start, if the host has given it; otherwise the machine waits (log 4). A program already
resolved is never resolved again (R184); no reachable `Idle` state holds one (log 21). -/
def idleStep (s : State) : Host.Outcome State Fault Refusal :=
  if s.startPending then
    match s.program with
    | .unresolved p => .next (startRun p s)
    | .resolved _ => .fault .wrongForm
  else .next s

end Sys2Proof.Machine
end

