-- ==== Sys2Proof/Machine/Operands.lean ====
section
/-! DEFINITION. Operand forms: the effective address of LD and ST, the machine's one addressing mode (R52, R202), and 8-bit addition, its one
arithmetic operation (R10, R162). Register operands are `State.readReg` (R94); an immediate is a byte, not extended, shifted or scaled (R92). -/

namespace Sys2Proof.Machine

/-- `add8(a, b) = byte(u8(a) + u8(b))` (R10): the exact sum of the unsigned readings, narrowed modulo 256 (R164). -/
def add8 (a b : Byte) : Byte := byteOfInt ((u8 a : Int) + (u8 b : Int))

/-- The effective address `u8(x[r])`: the unsigned reading of the address register, nothing added (R52, R202). -/
def State.effAddr (s : State) (r : Reg) : Nat := u8 (s.readReg r)

end Sys2Proof.Machine
end

