-- ==== Sys2Proof/Machine/Add.lean ====
section
/-! DEFINITION. The meanings of ADD and ADDI (R160, R161). -/

namespace Sys2Proof.Machine

/-- `ADD Rn, Rm` (R160): both operands are read before the write. -/
def execAdd (ra rb : Reg) (s : State) : Host.Outcome State Fault Refusal :=
  .next ((s.writeReg ra (add8 (s.readReg ra) (s.readReg rb))).charge Config.costSimple).advance

/-- `ADD Rn, num` (R161). -/
def execAddi (rd : Reg) (imm : Byte) (s : State) : Host.Outcome State Fault Refusal :=
  .next ((s.writeReg rd (add8 (s.readReg rd) imm)).charge Config.costSimple).advance

end Sys2Proof.Machine
end

