-- ==== Sys2Proof/Machine/Flags.lean ====
section
/-! DEFINITION. The compare flag, the machine's only flag (R31): its computation (R170) and its write. Addition has no flag (R162). -/

namespace Sys2Proof.Machine

/-- `u8(a) = u8(b)`: true exactly when the two bytes are bit-for-bit equal (R170). -/
def compareEqual (a b : Byte) : Bool := u8 a == u8 b

/-- `eq <- b` (R9, R31). -/
def State.setEq (s : State) (b : Bool) : State := { s with eq := b }

end Sys2Proof.Machine
end

