-- ==== Sys2Proof/Machine/Compare.lean ====
section
/-! DEFINITION. The meaning of CMP (R170). -/

namespace Sys2Proof.Machine

/-- `CMP Rn, Rm` (R170): `eq` is written always, to true or to false. -/
def execCmp (ra rb : Reg) (s : State) : Host.Outcome State Fault Refusal :=
  .next ((s.setEq (compareEqual (s.readReg ra) (s.readReg rb))).charge Config.costSimple).advance

end Sys2Proof.Machine
end

