-- ==== Sys2Proof/Machine/LoadStore.lean ====
section
/-! DEFINITION. The meanings of LD and ST (R200, R201). -/

namespace Sys2Proof.Machine

/-- `LD Rn, [Rm]` (R200): the address is taken before the destination is written, so `LD Rn, [Rn]` loads from the old value. -/
def execLd (ra rb : Reg) (s : State) : Host.Outcome State Fault Refusal :=
  .next ((s.touch (s.effAddr rb)).writeReg ra (s.memRead (s.effAddr rb))).advance

/-- `ST [Rm], Rn` (R201): `ra` is the address register, `rb` the data register. -/
def execSt (ra rb : Reg) (s : State) : Host.Outcome State Fault Refusal :=
  .next ((s.touch (s.effAddr ra)).memWrite (s.effAddr ra) (s.readReg rb)).advance

end Sys2Proof.Machine
end

