-- ==== Sys2Proof/Machine/Move.lean ====
section
/-! DEFINITION. The meaning of MOV (R150, R151). -/

namespace Sys2Proof.Machine

/-- `MOV Rn, num` (R150): the register takes the 8 bits of `imm8` as they are. -/
def execMov (rd : Reg) (imm : Byte) (s : State) : Host.Outcome State Fault Refusal :=
  .next ((s.writeReg rd imm).charge Config.costSimple).advance

end Sys2Proof.Machine
end

