-- ==== Sys2Proof/Machine/Dispatch.lean ====
section
/-! DEFINITION. The dispatch of R132: one arm per instruction, exhaustive over the eight. -/

namespace Sys2Proof.Machine

def exec (i : Instr) (s : State) : Host.Outcome State Fault Refusal :=
  match i with
  | .mov rd imm => Sys2Proof.Machine.execMov rd imm s
  | .add ra rb => Sys2Proof.Machine.execAdd ra rb s
  | .addi rd imm => Sys2Proof.Machine.execAddi rd imm s
  | .cmp ra rb => Sys2Proof.Machine.execCmp ra rb s
  | .je tgt => Sys2Proof.Machine.execJe tgt s
  | .jmp tgt => Sys2Proof.Machine.execJmp tgt s
  | .ld ra rb => Sys2Proof.Machine.execLd ra rb s
  | .st ra rb => Sys2Proof.Machine.execSt ra rb s

end Sys2Proof.Machine
end

