-- ==== Sys2Proof/Machine/Loop.lean ====
section
/-! DEFINITION. The run phase: the loop test, fetch, count, decode, execute (R131, R134), and the placing of one word where the next fetch reads (log 7). -/

namespace Sys2Proof.Machine

/-- The loop test `0 <= pc and pc < LEN` (R131); `pc` is unsigned, so its lower half always holds (R29, C6). -/
def pcInRange (p : ResolvedProgram) (pc : Index) : Bool := decide (pc.toNat < p.entries.length)

/-- `IMEM[pc]`; none exactly when the loop test fails. -/
def fetchWord (p : ResolvedProgram) (pc : Index) : Option IWord :=
  if pcInRange p pc then (p.entries[pc.toNat]?).map (·.word) else none

/-- One step, on the resolved program that the instruction store holds (R191), while `status = Running` (R131): out of range, the run ends and nothing is fetched or counted (R134); in range, the
word is fetched and counted, then executed. The Invalid arm cannot occur in a run (R88); it is a fault (U7, log 8). -/
def runStep (p : ResolvedProgram) (s : State) : Host.Outcome State Fault Refusal :=
  match fetchWord p s.pc with
  | none => .next s.halt
  | some w =>
    match decode w with
    | .ok i => exec i s.countFetch
    | .error _ => .fault .invalidWord

/-- An image with word `w` at index `n`; entries that are missing below it are filled with the zero entry (log 7). -/
def Image.place (img : Image) (n : Nat) (w : IWord) : Image :=
  match n, img with
  | 0, [] => [⟨w, 0#16⟩]
  | 0, e :: rest => ⟨w, e.line⟩ :: rest
  | n + 1, [] => ⟨0#32, 0#16⟩ :: Image.place [] n w
  | n + 1, e :: rest => e :: Image.place rest n w

/-- The state in which the run phase's next fetch reads `w`: the word placed at `pc` in a program
taken as resolved, and `status = Running` (log 7). -/
def State.placeWord (s : State) (w : IWord) : State :=
  { s with program := .resolved ⟨Image.place s.image s.pc.toNat w⟩, status := .running }

end Sys2Proof.Machine
end

