-- ==== Sys2Proof/Machine/Step.lean ====
section
/-! DEFINITION. One step of the machine (R40, R131). -/

namespace Sys2Proof.Machine

/-- One step: the loader's while `Idle`, the run phase's while `Running`, which takes only a resolved program (R191); `Halted` and `Rejected` change by nothing but reset (R40). -/
def step (s : State) : Host.Outcome State Fault Refusal :=
  match s.status with
  | .idle => idleStep s
  | .running =>
    match s.program with
    | .resolved p => runStep p s
    | .unresolved _ => .fault .wrongForm
  | .halted => .next s
  | .rejected => .next s

/-- `s` with a table word placed where `step` fetches its next instruction (log 7). -/
def State.withFetchWord (s : State) (nbits w : Nat) : State := s.placeWord (tableWord nbits w)

end Sys2Proof.Machine
end

