-- ==== Sys2Proof/Machine/Assembler.lean ====
section
/-! DEFINITION. The assembly text (R100 to R121): the source's Parser, which runs on the host and makes the image, and the disassembly (R120).
Text is a list of characters; the delimiters are the ASCII ones (R101, spec/93_implementation_defined.md section 3). -/

namespace Sys2Proof.Machine

/-- A token: a maximal run of non-delimiter characters (R101). -/
abbrev Token := List Char

/-- Why a line is rejected. The sub-causes are the assembler's own distinctions (R222, log 10); all are one class. -/
inductive LineError where
  /-- Token 1 is not `[0-9]+` with value at most 65535 (R103). -/
  | badLineNumber
  /-- There is no token 2 (R104). -/
  | noKeyword
  /-- Token 2 is not one of the seven keywords (R104). -/
  | unknownKeyword
  /-- More than two operand tokens (R105). -/
  | tooManyFields
  /-- The keyword's operand count is not met (R106). -/
  | operandCount
  /-- A token in a register position is not one of R1..R6 (R107, R110). -/
  | badRegister
  /-- A number token does not match `-?[0-9]+` (R108). -/
  | badNumber
  /-- A number outside [-128, 127] with `imm_out_of_range = reject` (R116). -/
  | immOutOfRange
  /-- A branch operand is not `[0-9]+` with value at most 65535 (R112). -/
  | badTarget
  deriving DecidableEq, Repr

/-- What assembling a text answers (R117, U9). -/
inductive AsmResult where
  /-- Every line was accepted. -/
  | image (img : Image)
  /-- The first rejected line in file order: its position among all lines, from 0, and its raw text for the diagnostic (R117, R237). -/
  | rejected (position : Nat) (raw : List Char) (why : LineError)
  /-- More than 65535 instructions: the text has no image (U9). -/
  | tooLong
  deriving DecidableEq, Repr

/-! ### Tokens (R101) -/

/-- The seven delimiters: space, comma, brackets, tab, newline, carriage return (R101). -/
def isDelimiter (c : Char) : Bool :=
  c == ' ' || c == ',' || c == '[' || c == ']' || c == '\t' || c == '\n' || c == '\r'

/-- A piece kept unless it is empty: runs of delimiters yield no empty token (R101). -/
def consToken (t : Token) (ts : List Token) : List Token :=
  match t with
  | [] => ts
  | c :: cs => (c :: cs) :: ts

/-- The token that is being read at the left end of the text, and the tokens right of it. -/
def tokenStep (c : Char) (p : Token × List Token) : Token × List Token :=
  if isDelimiter c then ([], consToken p.1 p.2) else (c :: p.1, p.2)

/-- The tokens of a line, in order (R101). -/
def tokens (line : List Char) : List Token :=
  let p := line.foldr tokenStep ([], [])
  consToken p.1 p.2

/-! ### Number and register tokens (R103, R107, R108, R112) -/

/-- The value of a decimal digit `0`..`9`. -/
def digitValue (c : Char) : Option Nat :=
  if 48 ≤ c.toNat ∧ c.toNat ≤ 57 then some (c.toNat - 48) else none

/-- The value of a run of digits read after `acc`; none if a character is no digit. -/
def digitsValue (acc : Nat) (t : Token) : Option Nat :=
  match t with
  | [] => some acc
  | c :: cs =>
    match digitValue c with
    | some d => digitsValue (acc * 10 + d) cs
    | none => none

/-- A token matching `[0-9]+`, the whole token; leading zeros are decimal (U4). -/
def natToken (t : Token) : Option Nat :=
  match t with
  | [] => none
  | c :: cs => digitsValue 0 (c :: cs)

/-- A line number or branch operand: `[0-9]+`, at most 65535 (R103, R112, D10). -/
def lineToken (t : Token) : Option LineNo :=
  match natToken t with
  | some n => if n ≤ 65535 then some (BitVec.ofNat 16 n) else none
  | none => none

/-- A number token: `-?[0-9]+`, the whole token (R108). -/
def intToken (t : Token) : Option Int :=
  match t with
  | [] => none
  | c :: cs =>
    if c = '-' then
      match natToken cs with
      | some n => some (-(n : Int))
      | none => none
    else
      match natToken (c :: cs) with
      | some n => some (n : Int)
      | none => none

/-- A register token: exactly `R1`..`R6`; the index is the digit minus one (R107). -/
def regToken (t : Token) : Option Reg :=
  if t = ['R', '1'] then some 0
  else if t = ['R', '2'] then some 1
  else if t = ['R', '3'] then some 2
  else if t = ['R', '4'] then some 3
  else if t = ['R', '5'] then some 4
  else if t = ['R', '6'] then some 5
  else none

/-- The immediate byte of a number token under `imm_out_of_range` (R92, R116). -/
def immToken (p : ImmPolicy) (t : Token) : Except LineError Byte :=
  match intToken t with
  | none => .error .badNumber
  | some n =>
    match p with
    | .wrap => .ok (byteOfInt n)
    | .reject => if InstrRecord.immOk n then .ok (byteOfInt n) else .error .immOutOfRange

/-! ### One line (R103 to R114) -/

/-- The keywords (R104). -/
inductive Keyword where
  | mov
  | add
  | cmp
  | je
  | jmp
  | ld
  | st
  deriving DecidableEq, Repr

/-- Keywords are matched exactly, in upper case (R104, D11). -/
def keywordToken (t : Token) : Option Keyword :=
  if t = ['M', 'O', 'V'] then some .mov
  else if t = ['A', 'D', 'D'] then some .add
  else if t = ['C', 'M', 'P'] then some .cmp
  else if t = ['J', 'E'] then some .je
  else if t = ['J', 'M', 'P'] then some .jmp
  else if t = ['L', 'D'] then some .ld
  else if t = ['S', 'T'] then some .st
  else none

/-- Two register operands in text order. -/
def twoRegs (mk : Reg → Reg → Instr) (a b : Token) : Except LineError Instr :=
  match regToken a, regToken b with
  | some ra, some rb => .ok (mk ra rb)
  | _, _ => .error .badRegister

/-- A register and a number. -/
def regAndImm (p : ImmPolicy) (mk : Reg → Byte → Instr) (a b : Token) : Except LineError Instr :=
  match regToken a with
  | none => .error .badRegister
  | some rd =>
    match immToken p b with
    | .ok imm => .ok (mk rd imm)
    | .error e => .error e

/-- The second operand of ADD begins with `R`: it is a register or the line is rejected (R110). -/
def beginsWithR (t : Token) : Bool :=
  match t with
  | [] => false
  | c :: _ => c == 'R'

/-- A branch operand (R112). -/
def branchOperand (mk : Index → Instr) (a : Token) : Except LineError Instr :=
  match lineToken a with
  | some l => .ok (mk l)
  | none => .error .badTarget

/-- A keyword with two operand tokens (R106, R109 to R114). -/
def parseTwo (p : ImmPolicy) (k : Keyword) (a b : Token) : Except LineError Instr :=
  match k with
  | .mov => regAndImm p .mov a b
  | .add => if beginsWithR b then twoRegs .add a b else regAndImm p .addi a b
  | .cmp => twoRegs .cmp a b
  | .je => .error .operandCount
  | .jmp => .error .operandCount
  | .ld => twoRegs .ld a b
  | .st => twoRegs .st a b

/-- A keyword with one operand token (R106, R112). -/
def parseOne (k : Keyword) (a : Token) : Except LineError Instr :=
  match k with
  | .mov => .error .operandCount
  | .add => .error .operandCount
  | .cmp => .error .operandCount
  | .je => branchOperand .je a
  | .jmp => branchOperand .jmp a
  | .ld => .error .operandCount
  | .st => .error .operandCount

/-- The operand tokens of a keyword: exactly as many as it needs, never more than two (R105, R106). -/
def parseOperands (p : ImmPolicy) (k : Keyword) (ops : List Token) : Except LineError Instr :=
  match ops with
  | [] => .error .operandCount
  | [a] => parseOne k a
  | [a, b] => parseTwo p k a b
  | _ :: _ :: _ :: _ => .error .tooManyFields

/-- One line's tokens: no entry for a blank line (R102), an entry, or a rejection. -/
def parseTokens (p : ImmPolicy) (ts : List Token) : Except LineError (Option Entry) :=
  match ts with
  | [] => .ok none
  | [n] =>
    match lineToken n with
    | some _ => .error .noKeyword
    | none => .error .badLineNumber
  | n :: kw :: ops =>
    match lineToken n with
    | none => .error .badLineNumber
    | some l =>
      match keywordToken kw with
      | none => .error .unknownKeyword
      | some k =>
        match parseOperands p k ops with
        | .ok i => .ok (some ⟨encode i, l⟩)
        | .error e => .error e

/-- One line of text (R100 to R116). Brackets are delimiters and nothing else (R115). -/
def parseLine (p : ImmPolicy) (line : List Char) : Except LineError (Option Entry) := parseTokens p (tokens line)

/-! ### A whole text (R100, R117) -/

/-- The line that is being read at the left end of the text, and the lines right of it. -/
def lineStep (c : Char) (q : List Char × List (List Char)) : List Char × List (List Char) :=
  if c = '\n' then ([], q.1 :: q.2) else (c :: q.1, q.2)

/-- The lines of a text, split at each newline (log 11). -/
def splitLines (text : List Char) : List (List Char) :=
  let q := text.foldr lineStep ([], [])
  q.1 :: q.2

/-- The entries of the lines in file order, blank lines skipped (R100); the first rejected line ends it (R117). -/
def assembleFrom (p : ImmPolicy) (position : Nat) (lines : List (List Char)) : AsmResult :=
  match lines with
  | [] => .image []
  | l :: rest =>
    match parseLine p l with
    | .error why => .rejected position l why
    | .ok none => assembleFrom p (position + 1) rest
    | .ok (some e) =>
      match assembleFrom p (position + 1) rest with
      | .image img => .image (e :: img)
      | .rejected k raw why => .rejected k raw why
      | .tooLong => .tooLong

/-- The lines assembled; a text of more than 65535 instructions has no image (U9). -/
def assembleLines (p : ImmPolicy) (lines : List (List Char)) : AsmResult :=
  match assembleFrom p 0 lines with
  | .image img => if Image.lengthOk img then .image img else .tooLong
  | .rejected k raw why => .rejected k raw why
  | .tooLong => .tooLong

/-- A text assembled (R100). -/
def assemble (p : ImmPolicy) (text : List Char) : AsmResult := assembleLines p (splitLines text)

/-! ### Disassembly (R120) -/

/-- The character of a decimal digit. -/
def digitChar (d : Nat) : Char := Char.ofNat (48 + d)

/-- The decimal digits of `n`, written before `acc`; `fuel` bounds their number. -/
def decimalFrom (fuel n : Nat) (acc : List Char) : List Char :=
  match fuel with
  | 0 => acc
  | fuel + 1 => if n < 10 then digitChar n :: acc else decimalFrom fuel (n / 10) (digitChar (n % 10) :: acc)

/-- A natural number in decimal. -/
def decimal (n : Nat) : List Char := decimalFrom (n + 1) n []

/-- An integer in decimal, with a minus sign when negative. -/
def decimalInt (n : Int) : List Char := if n < 0 then '-' :: decimal n.natAbs else decimal n.natAbs

/-- `R1`..`R6` (R23). -/
def regText (r : Reg) : List Char := ['R', digitChar (r.val + 1)]

/-- `KW Rn, x`. -/
def twoOperands (kw a b : List Char) : List Char := kw ++ ' ' :: a ++ ',' :: ' ' :: b

/-- A register in brackets, the canonical spelling of an address operand (R115). -/
def bracketed (t : List Char) : List Char := '[' :: t ++ [']']

/-- The text of an instruction (R120). A branch target prints as the number in `tgt`. -/
def disassemble (i : Instr) : List Char :=
  match i with
  | .mov rd imm => twoOperands ['M', 'O', 'V'] (regText rd) (decimalInt (s8 imm))
  | .add ra rb => twoOperands ['A', 'D', 'D'] (regText ra) (regText rb)
  | .addi rd imm => twoOperands ['A', 'D', 'D'] (regText rd) (decimalInt (s8 imm))
  | .cmp ra rb => twoOperands ['C', 'M', 'P'] (regText ra) (regText rb)
  | .je tgt => ['J', 'E', ' '] ++ decimal tgt.toNat
  | .jmp tgt => ['J', 'M', 'P', ' '] ++ decimal tgt.toNat
  | .ld ra rb => twoOperands ['L', 'D'] (regText ra) (bracketed (regText rb))
  | .st ra rb => twoOperands ['S', 'T'] (bracketed (regText ra)) (regText rb)

/-- The line of text of an instruction under a line number (R100). -/
def lineText (l : LineNo) (i : Instr) : List Char := decimal l.toNat ++ ' ' :: disassemble i

end Sys2Proof.Machine
end

