-- ==== Sys2Proof/Machine/Reporter.lean ====
section
/-! DEFINITION. What the host reads after a run (R235 to R237): the four counters after a halt, the rejected entry after a rejection. -/

namespace Sys2Proof.Machine

/-- The four final counters, in the report's order (R236). -/
structure Report where
  instret : Nat
  cycles : Nat
  localHits : Nat
  ldst : Nat
  deriving DecidableEq, Repr

/-- The report: after a halt only (R235, R236); in `Rejected` none (R228); while `Running` the host has no access (R65). -/
def report (s : State) : Option Report :=
  match s.status with
  | .halted => some ⟨s.instret, s.cycles, s.localHits, s.ldst⟩
  | .idle => none
  | .running => none
  | .rejected => none

/-- What the host may read after a rejection: `rej_index` and `IMEM[rej_index]` (R222, R235). -/
def rejection (s : State) : Option (Nat × Option IWord) :=
  match s.status with
  | .rejected => some (s.rejIndex, s.imem s.rejIndex)
  | .idle => none
  | .running => none
  | .halted => none

/-- The report's four lines of text (R236). -/
def reportLines (r : Report) : List (List Char) :=
  ["Total number of executed instructions: ".toList ++ decimal r.instret,
   "Total number of clock cycles: ".toList ++ decimal r.cycles,
   "Number of hits to local memory: ".toList ++ decimal r.localHits,
   "Total number of executed LD/ST instructions: ".toList ++ decimal r.ldst]

/-- The rejection message: the raw offending line after the marker (R237); the marker's text is a free value (log 12). -/
def rejectionMessage (raw : List Char) : List Char := Config.rejectionMarker ++ raw

/-- The exit status of a rejection: a free value, not 0 (R237, U13; log 12). -/
def rejectionStatus : Nat := Config.rejectionStatusLessOne + 1

end Sys2Proof.Machine
end

