-- ==== Sys2Proof/Machine/HostInputs.lean ====
section
/-! DEFINITION. The host's inputs (R235, R40): reset at any time, the image and one start while `Idle`, nothing else. -/

namespace Sys2Proof.Machine

/-- The host may write the image: `Idle`, and the start not yet given (R235: "finish loading, then give one start"). -/
def State.loadable (s : State) : Bool := decide (s.status = .idle) && !s.startPending

/-- The reset input, from any status (R40): every field at its reset value (R252: no state survives). -/
def hostReset (_ : State) : State := State.reset

/-- The image written (R253 step 2). Outside `Idle` nothing happens (R40 last row, R65; log 6). A longer image than `MAXLEN` is refused (U9). -/
def hostLoad (img : Image) (s : State) : Host.Outcome State Fault Refusal :=
  if s.loadable then
    if Image.lengthOk img then .next { s with program := .unresolved ⟨img⟩ } else .refused .imageTooLong
  else .next s

/-- The start (R40). Outside `Idle` nothing happens. -/
def hostStart (s : State) : State := if s.loadable then { s with startPending := true } else s

/-- One input of the host. -/
def hostApply (h : HostInput) (s : State) : Host.Outcome State Fault Refusal :=
  match h with
  | .reset => .next (hostReset s)
  | .load img => hostLoad img s
  | .start => .next (hostStart s)

/-- The state in which a whole run begins: reset, the image loaded, the start given (R253 steps 1 and 2). -/
def boot (img : Image) : State := { State.reset with program := .unresolved ⟨img⟩, startPending := true }

end Sys2Proof.Machine
end

