-- ==== Sys2Proof/Machine/System.lean ====
section
/-! DEFINITION. The machine with its host: one event (R40, R235). -/

namespace Sys2Proof.Machine

/-- One event: a step of the machine, or an input of the host. -/
def react (e : Event) (s : State) : Host.Outcome State Fault Refusal :=
  match e with
  | .clock => step s
  | .host h => hostApply h s

end Sys2Proof.Machine
end

