-- ==== Sys2Proof/Safety.lean ====
section
/-! DEFINITION. The invariant of every reachable state, in named parts, reachability, and what a safe step is (R29, R39, R40, R88, R138, R183). -/

namespace Sys2Proof.Machine

/-- The memory and the `touched` flags are in canonical form (R41, R42). -/
def StorageInv (s : State) : Prop := Memory.wf s.mem = true ∧ Touched.wf s.touched = true

/-- The relations between the counters and the `touched` flags (R39, R140). -/
def CounterInv (s : State) : Prop :=
  s.ldst ≤ s.instret ∧ s.localHits ≤ s.ldst ∧ s.ldst - s.localHits = s.touched.length ∧
    s.cycles = (s.instret - s.ldst) * 1 + (s.ldst - s.localHits) * 50 + s.localHits * 2

/-- Every word decodes, and every branch target is an index or the sentinel (R88, R183). -/
def Image.resolvedOk (img : Image) : Bool :=
  img.all fun e =>
    match decode e.word with
    | .ok i => i.wellFormed img.length
    | .error _ => false

/-- The nine rows of CPU state are at their reset values (R21, R250). -/
def CpuAtReset (s : State) : Prop :=
  s.regs = State.reset.regs ∧ s.pc = State.reset.pc ∧ s.eq = State.reset.eq ∧ s.mem = State.reset.mem ∧
    s.touched = State.reset.touched ∧ s.instret = State.reset.instret ∧ s.cycles = State.reset.cycles ∧
    s.localHits = State.reset.localHits ∧ s.ldst = State.reset.ldst

/-- What holds in each phase (R40): before the start and after a rejection nothing has executed (R221); in a run the image is valid
and resolved and `pc` is in 0..`LEN` (R29, R88); a halted machine has `pc = LEN` (R134). The store has the form of its phase (R45, R191). -/
def PhaseInv (s : State) : Prop :=
  match s.status with
  | .idle => CpuAtReset s ∧ Program.isResolved s.program = false
  | .running => Program.isResolved s.program = true ∧ Image.resolvedOk s.image = true ∧ s.pc.toNat ≤ s.len ∧ s.startPending = false
  | .halted => Program.isResolved s.program = true ∧ Image.resolvedOk s.image = true ∧ s.pc.toNat = s.len ∧ s.startPending = false
  | .rejected => CpuAtReset s ∧ Program.isResolved s.program = false ∧ firstInvalid s.image = some s.rejIndex ∧ s.startPending = false

/-- The invariant of the machine. -/
def Inv (s : State) : Prop :=
  StorageInv s ∧ CounterInv s ∧ Image.lengthOk s.image = true ∧ PhaseInv s

/-- The states that the machine and its host can bring about from reset (R21: a run always starts from reset). -/
inductive Reachable : State → Prop where
  | reset : Reachable State.reset
  | event (e : Event) (s s' : State) : Reachable s → react e s = .next s' → Reachable s'

/-- `n` steps of the machine lead from `s` to `t`, each answering a next state. -/
def StepsTo (n : Nat) (s t : State) : Prop :=
  match n with
  | 0 => t = s
  | n + 1 => ∃ u, step s = .next u ∧ StepsTo n u t

/-- A safe step: it answers a next state, neither a fault nor a refusal (R138). -/
def Steps (s : State) : Prop := ∃ s', step s = .next s'

/-! ### The terms of the frames: what an instruction leaves unchanged -/

/-- Every register but `d` reads as before. -/
def SameRegsBut (d : Reg) (s t : State) : Prop := ∀ r : Reg, r ≠ d → t.readReg r = s.readReg r

/-- Every register reads as before. -/
def SameRegs (s t : State) : Prop := ∀ r : Reg, t.readReg r = s.readReg r

/-- Every byte of memory reads as before. -/
def SameMemory (s t : State) : Prop := ∀ a : Nat, t.memRead a = s.memRead a

/-- Every `touched` flag is as before. -/
def SameTouched (s t : State) : Prop := ∀ a : Nat, t.isTouched a = s.isTouched a

/-- The instruction store, `status`, `rej_index` and the pending start are as before, and `instret`, which the loop counts (R133). -/
def SameControl (s t : State) : Prop :=
  t.program = s.program ∧ t.status = s.status ∧ t.rejIndex = s.rejIndex ∧ t.startPending = s.startPending ∧
    t.instret = s.instret

/-- The address of the one data access an instruction makes, if it makes one (R200, R201). -/
def dataAddress (i : Instr) (s : State) : Option Nat :=
  match i with
  | .mov _ _ => none
  | .add _ _ => none
  | .addi _ _ => none
  | .cmp _ _ => none
  | .je _ => none
  | .jmp _ => none
  | .ld _ rb => some (s.effAddr rb)
  | .st ra _ => some (s.effAddr ra)

/-- Two states that agree on everything but the `touched` flags and the four counters (R58). -/
def AgreeButCost (s t : State) : Prop :=
  t.regs = s.regs ∧ t.pc = s.pc ∧ t.eq = s.eq ∧ t.mem = s.mem ∧ t.program = s.program ∧ t.status = s.status ∧
    t.rejIndex = s.rejIndex ∧ t.startPending = s.startPending

/-- The instruction is neither JE nor JMP (R141). -/
def straight (i : Instr) : Bool :=
  match i with
  | .mov _ _ => true
  | .add _ _ => true
  | .addi _ _ => true
  | .cmp _ _ => true
  | .je _ => false
  | .jmp _ => false
  | .ld _ _ => true
  | .st _ _ => true

end Sys2Proof.Machine
end

