-- ==== Sys2Proof/Certificates/Slice0/Obligations.lean ====
section
/-! DEFINITION. The statements for the provers. Each says which rule or section of the spec it formalises. -/

open Sys2Proof Sys2Proof.Machine

/-! ### The word: decoder and encoder -/

/-- R121, whole: the twelve worked encodings. The word of each instruction is the word written there, it decodes to the
instruction with the fields written there, and it prints as the text written there; and a register field in place is its index
times 0x02000000 (`ra`, `rd`) or 0x00400000 (`rb`). -/
def Obligations.WorkedEncodings : Prop :=
  (∀ r ∈ ([("MOV R1, 5", 0x00000005#32, .mov 0 0x05#8), ("MOV R2, -1", 0x020000FF#32, .mov 1 0xFF#8),
      ("MOV R6, -128", 0x0A000080#32, .mov 5 0x80#8), ("ADD R1, R2", 0x10400000#32, .add 0 1),
      ("ADD R3, 1", 0x24000001#32, .addi 2 0x01#8), ("ADD R1, -2", 0x200000FE#32, .addi 0 0xFE#8),
      ("CMP R1, R2", 0x30400000#32, .cmp 0 1), ("JE 6", 0x40000006#32, .je 6#16), ("JMP 99", 0x50000063#32, .jmp 99#16),
      ("LD R2, [R1]", 0x62000000#32, .ld 1 0), ("ST [R1], R1", 0x70000000#32, .st 0 0),
      ("ST [R3], R6", 0x75400000#32, .st 2 5)] : List (String × IWord × Instr)),
    decode r.2.1 = .ok r.2.2 ∧ encode r.2.2 = r.2.1 ∧ (opField r.2.1).toNat = r.2.2.opNumber ∧
      disassemble r.2.2 = r.1.toList) ∧
  (∀ (r q : Reg) (b : Byte),
    (∀ i ∈ [Instr.mov r b, Instr.addi r b],
      (encode i).toNat = i.opNumber * 0x10000000 + r.val * 0x02000000 + b.toNat) ∧
    (∀ i ∈ [Instr.add r q, Instr.cmp r q, Instr.ld r q, Instr.st r q],
      (encode i).toNat = i.opNumber * 0x10000000 + r.val * 0x02000000 + q.val * 0x00400000))

/-- R82, R85: decoding an encoded instruction gives it back, for every operand at every value. -/
def Obligations.DecodeOfEncode : Prop := ∀ i : Instr, decode (encode i) = .ok i

/-- R87, R90, D3 ("one word per record"): the word a decoded instruction encodes to is the word it was decoded from. -/
def Obligations.EncodeOfDecode : Prop := ∀ (w : IWord) (i : Instr), decode w = .ok i → encode i = w

/-- R85: a word that decodes is selected by its instruction's row of the opcode map, and a word that a row selects decodes to an
instruction of that row provided its register fields are at most 5. -/
def Obligations.OpcodeMapSelectsTheInstruction : Prop :=
  (∀ (w : IWord) (i : Instr), decode w = .ok i → i.row ∈ opcodeRows ∧ i.row.selects w = true) ∧
  (∀ (w : IWord) (r : OpcodeRow), r ∈ opcodeRows → r.selects w = true →
    (r.mnemonic ∈ ["MOV", "ADD", "ADDI", "CMP", "LD", "ST"] → (raField w).toNat ≤ 5) →
    (r.mnemonic ∈ ["ADD", "CMP", "LD", "ST"] → (rbField w).toNat ≤ 5) →
    ∃ i, decode w = .ok i ∧ i.row = r)

/-- R85: the eight rows are disjoint. -/
def Obligations.OpcodeRowsAreDisjoint : Prop :=
  ∀ (w : IWord) (r q : OpcodeRow), r ∈ opcodeRows → q ∈ opcodeRows → r.selects w = true → q.selects w = true → r = q

/-- R90: exactly which words are Invalid. -/
def Obligations.InvalidWords : Prop :=
  ∀ w : IWord, isInvalid w = true ↔
    (8 ≤ (opField w).toNat) ∨
    ((opField w = 0x0#4 ∨ opField w = 0x2#4) ∧ (mbzRI w ≠ 0 ∨ 5 < (raField w).toNat)) ∨
    ((opField w = 0x1#4 ∨ opField w = 0x3#4 ∨ opField w = 0x6#4 ∨ opField w = 0x7#4) ∧
      (mbzRR w ≠ 0 ∨ 5 < (raField w).toNat ∨ 5 < (rbField w).toNat)) ∨
    ((opField w = 0x4#4 ∨ opField w = 0x5#4) ∧ mbzJ w ≠ 0)

/-- R92: `imm8 = byte(immediate)`, `immediate = s8(imm8)`; MOV and ADDI use it as a byte, with no extension and no scaling. -/
def Obligations.ImmediateIsAByte : Prop :=
  (∀ b : Byte, byteOfInt (s8 b) = b) ∧
  (∀ n : Int, -128 ≤ n → n ≤ 127 → s8 (byteOfInt n) = n) ∧
  (∀ (rd : Reg) (imm : Byte), (Instr.mov rd imm).toRecord.immediate = s8 imm ∧
    (Instr.addi rd imm).toRecord.immediate = s8 imm) ∧
  (∀ (rd : Reg) (imm : Byte) (s : State), (∃ t, exec (.mov rd imm) s = .next t ∧ t.readReg rd = imm) ∧
    (∃ t, exec (.addi rd imm) s = .next t ∧ t.readReg rd = add8 (s.readReg rd) imm))

/-- R80, R84: the record of an instruction is well-formed, with `dest_register` the field `ra` and `src_register` the field `rb`,
"unset" where the opcode has none, and it gives the instruction back. -/
def Obligations.RecordViewIsFaithful : Prop :=
  (∀ i : Instr, i.toRecord.wellFormed = true ∧ i.toRecord.toInstr = some i) ∧
  (∀ (r q : Reg) (b : Byte) (t : Index),
    (Instr.mov r b).toRecord.dest = (r.val : Int) ∧ (Instr.mov r b).toRecord.src = -1 ∧
    (Instr.addi r b).toRecord.dest = (r.val : Int) ∧ (Instr.addi r b).toRecord.src = -1 ∧
    (Instr.je t).toRecord.dest = -1 ∧ (Instr.je t).toRecord.src = -1 ∧
    (Instr.jmp t).toRecord.dest = -1 ∧ (Instr.jmp t).toRecord.src = -1 ∧
    (∀ i ∈ [Instr.add r q, Instr.cmp r q, Instr.ld r q, Instr.st r q],
      i.toRecord.dest = (r.val : Int) ∧ i.toRecord.src = (q.val : Int)))

/-! ### Arithmetic -/

/-- R10, whole: the sum of the unsigned readings and the sum of the signed readings narrow to the same byte, `add8`. -/
def Obligations.AddIsTheSameSignedAndUnsigned : Prop :=
  ∀ a b : Byte, add8 a b = byteOfInt ((u8 a : Int) + (u8 b : Int)) ∧ add8 a b = byteOfInt (s8 a + s8 b)

/-- R162's two readings: the signed result is the true sum, less or plus 256 outside [-128, 127]; the unsigned one the true sum,
less 256 above 255. -/
def Obligations.AddWrapsInBothReadings : Prop :=
  ∀ a b : Byte,
    (s8 (add8 a b) = if 127 < s8 a + s8 b then s8 a + s8 b - 256
      else if s8 a + s8 b < -128 then s8 a + s8 b + 256 else s8 a + s8 b) ∧
    (u8 (add8 a b) = if u8 a + u8 b ≤ 255 then u8 a + u8 b else u8 a + u8 b - 256)

/-- R163, whole: commutative, associative, identity 0x00, inverse `byte(256 - u8(b))`, the integers modulo 256; adding 0x01 256
times returns the starting value. -/
def Obligations.AddIsModulo256 : Prop :=
  (∀ a b : Byte, add8 a b = add8 b a) ∧
  (∀ a b c : Byte, add8 (add8 a b) c = add8 a (add8 b c)) ∧
  (∀ a : Byte, add8 a 0x00#8 = a) ∧
  (∀ b : Byte, add8 b (byteOfInt (256 - (u8 b : Int))) = 0x00#8) ∧
  (∀ a b : Byte, u8 (add8 a b) = (u8 a + u8 b) % 256) ∧
  (∀ a : Byte, (fun x => add8 x 0x01#8)^[256] a = a)

/-! ### The eight instructions: result, counters and frame, completing in every state -/

/-- MOV (R150: pseudocode, flags, counters, exceptions): it completes, and what it changes and leaves. -/
def Obligations.MovLoadsTheConstant : Prop :=
  ∀ (rd : Reg) (imm : Byte) (s : State), ∃ t, exec (.mov rd imm) s = .next t ∧
    t.readReg rd = imm ∧ SameRegsBut rd s t ∧ t.cycles = s.cycles + 1 ∧ t.pc = s.pc + 1#16 ∧
    t.eq = s.eq ∧ SameMemory s t ∧ SameTouched s t ∧ t.localHits = s.localHits ∧ t.ldst = s.ldst ∧ SameControl s t

/-- ADD (R160): both operands are those before the step, so `ADD Rn, Rn` doubles. -/
def Obligations.AddAddsTheRegisters : Prop :=
  ∀ (ra rb : Reg) (s : State), ∃ t, exec (.add ra rb) s = .next t ∧
    t.readReg ra = byteOfInt ((u8 (s.readReg ra) : Int) + (u8 (s.readReg rb) : Int)) ∧ SameRegsBut ra s t ∧
    t.cycles = s.cycles + 1 ∧ t.pc = s.pc + 1#16 ∧
    t.eq = s.eq ∧ SameMemory s t ∧ SameTouched s t ∧ t.localHits = s.localHits ∧ t.ldst = s.ldst ∧ SameControl s t

/-- ADDI (R161). -/
def Obligations.AddiAddsTheConstant : Prop :=
  ∀ (rd : Reg) (imm : Byte) (s : State), ∃ t, exec (.addi rd imm) s = .next t ∧
    t.readReg rd = byteOfInt ((u8 (s.readReg rd) : Int) + (u8 imm : Int)) ∧ SameRegsBut rd s t ∧
    t.cycles = s.cycles + 1 ∧ t.pc = s.pc + 1#16 ∧
    t.eq = s.eq ∧ SameMemory s t ∧ SameTouched s t ∧ t.localHits = s.localHits ∧ t.ldst = s.ldst ∧ SameControl s t

/-- CMP (R170): `eq` is written always; no register is. -/
def Obligations.CmpSetsTheFlag : Prop :=
  ∀ (ra rb : Reg) (s : State), ∃ t, exec (.cmp ra rb) s = .next t ∧
    (t.eq = true ↔ s.readReg ra = s.readReg rb) ∧ SameRegs s t ∧ t.cycles = s.cycles + 1 ∧ t.pc = s.pc + 1#16 ∧
    SameMemory s t ∧ SameTouched s t ∧ t.localHits = s.localHits ∧ t.ldst = s.ldst ∧ SameControl s t

/-- JE (R186): taken exactly when `eq` is true; one cycle either way; `eq` is not cleared by being read. -/
def Obligations.JeBranchesOnEqual : Prop :=
  ∀ (tgt : Index) (s : State), ∃ t, exec (.je tgt) s = .next t ∧
    (s.eq = true → t.pc = tgt) ∧ (s.eq = false → t.pc = s.pc + 1#16) ∧ t.cycles = s.cycles + 1 ∧
    SameRegs s t ∧ t.eq = s.eq ∧ SameMemory s t ∧ SameTouched s t ∧ t.localHits = s.localHits ∧ t.ldst = s.ldst ∧
    SameControl s t

/-- JMP (R187). -/
def Obligations.JmpBranchesAlways : Prop :=
  ∀ (tgt : Index) (s : State), ∃ t, exec (.jmp tgt) s = .next t ∧
    t.pc = tgt ∧ t.cycles = s.cycles + 1 ∧
    SameRegs s t ∧ t.eq = s.eq ∧ SameMemory s t ∧ SameTouched s t ∧ t.localHits = s.localHits ∧ t.ldst = s.ldst ∧
    SameControl s t

/-- LD (R200): the byte at the address the address register held before the step; the cost of R54; the address warm afterwards. -/
def Obligations.LdLoadsTheByte : Prop :=
  ∀ (ra rb : Reg) (s : State), ∃ t, exec (.ld ra rb) s = .next t ∧
    t.readReg ra = s.memRead (u8 (s.readReg rb)) ∧ SameRegsBut ra s t ∧ t.pc = s.pc + 1#16 ∧ t.ldst = s.ldst + 1 ∧
    (s.isTouched (u8 (s.readReg rb)) = true → t.cycles = s.cycles + 2 ∧ t.localHits = s.localHits + 1) ∧
    (s.isTouched (u8 (s.readReg rb)) = false → t.cycles = s.cycles + 50 ∧ t.localHits = s.localHits) ∧
    (∀ a, t.isTouched a = (decide (a = u8 (s.readReg rb)) || s.isTouched a)) ∧
    t.eq = s.eq ∧ SameMemory s t ∧ SameControl s t

/-- ST (R201): the byte stored at `effAddr` of the address register `ra`, which is `u8(x[ra])`; every other byte, and every
register, unchanged; the cost of R54. The premise is the memory's canonical form, which every step keeps (StepKeepsTheStorageForm). -/
def Obligations.StStoresTheByte : Prop :=
  ∀ (ra rb : Reg) (s : State), Memory.wf s.mem = true → ∃ t, exec (.st ra rb) s = .next t ∧
    s.effAddr ra = u8 (s.readReg ra) ∧
    (∀ a, s.effAddr ra = a → t.memRead a = s.readReg rb ∧ ∀ c, c ≠ a → t.memRead c = s.memRead c) ∧
    SameRegs s t ∧ t.pc = s.pc + 1#16 ∧ t.ldst = s.ldst + 1 ∧
    (s.isTouched (s.effAddr ra) = true → t.cycles = s.cycles + 2 ∧ t.localHits = s.localHits + 1) ∧
    (s.isTouched (s.effAddr ra) = false → t.cycles = s.cycles + 50 ∧ t.localHits = s.localHits) ∧
    (∀ a, t.isTouched a = (decide (a = s.effAddr ra) || s.isTouched a)) ∧
    t.eq = s.eq ∧ SameControl s t

/-- R61, R256: a LD that follows a ST of the same address returns the stored byte, and costs 2. -/
def Obligations.StoreThenLoad : Prop :=
  ∀ (ra rb rc rd : Reg) (s : State), Memory.wf s.mem = true → s.readReg rd = s.readReg ra →
    ∃ t u, exec (.st ra rb) s = .next t ∧ exec (.ld rc rd) t = .next u ∧
      u.readReg rc = s.readReg rb ∧ u.cycles = t.cycles + 2 ∧ u.localHits = t.localHits + 1

/-! ### What holds of all eight instructions -/

/-- R28, whole: the instruction at index `i` executes in a state whose `pc` is `i`; how each instruction sets `pc`; and that none reads
it as a datum: from another `pc` an instruction does the same, but for `pc` itself. -/
def Obligations.HowThePcMoves : Prop :=
  (∀ (s : State) (p : ResolvedProgram) (k : Nat) (e : Entry) (i : Instr), s.status = .running → s.program = .resolved p →
    s.pc.toNat = k → p.entries[k]? = some e → decode e.word = .ok i →
    ∃ u, u.pc.toNat = k ∧ u.program = s.program ∧ step s = exec i u) ∧
  (∀ (i : Instr) (s t : State), exec i s = .next t →
    t.pc = match i with
      | .jmp tgt => tgt
      | .je tgt => if s.eq then tgt else s.pc + 1#16
      | _ => s.pc + 1#16) ∧
  (∀ (i : Instr) (s t u : State) (p : Index), exec i s = .next t → exec i { s with pc := p } = .next u →
    { u with pc := t.pc } = t)

/-- R31: `eq` is written by CMP and by nothing else, JE does not clear it; it is read by JE and by nothing else; it is false
after reset, so a JE before any CMP falls through. -/
def Obligations.CompareFlagHasOneWriterAndOneReader : Prop :=
  (∀ (i : Instr) (s t : State), exec i s = .next t → (∀ ra rb, i ≠ .cmp ra rb) → t.eq = s.eq) ∧
  (∀ (i : Instr) (s t u : State) (b : Bool), (∀ tgt, i ≠ .je tgt) → exec i s = .next t →
    exec i { s with eq := b } = .next u → { u with eq := t.eq } = t ∧ ((∃ ra rb, i = .cmp ra rb) → u.eq = t.eq)) ∧
  State.reset.eq = false ∧
  (∀ (tgt : Index) (s t : State), s.eq = false → exec (.je tgt) s = .next t → t.pc = s.pc + 1#16)

/-- R260, whole: the cost table; validation, resolution and the halt charge nothing. -/
def Obligations.CostTable : Prop :=
  (∀ (i : Instr) (s t : State), exec i s = .next t →
    t.cycles = s.cycles + match dataAddress i s with
      | none => 1
      | some a => if s.isTouched a then 2 else 50) ∧
  (∀ s t : State, s.status ≠ .running → step s = .next t → t.cycles = s.cycles) ∧
  (∀ s t : State, step s = .next t → t.status = .halted → t.cycles = s.cycles)

/-- R42, R57: once warm, an address is warm after every step and every input of the host but reset, which makes all cold. -/
def Obligations.WarmUntilReset : Prop :=
  (∀ (s t : State) (a : Nat), s.isTouched a = true → step s = .next t → t.isTouched a = true) ∧
  (∀ (h : HostInput) (s t : State) (a : Nat), h ≠ .reset → s.isTouched a = true → hostApply h s = .next t →
    t.isTouched a = true) ∧
  (∀ (s t : State) (a : Nat), hostApply .reset s = .next t → t.isTouched a = false)

/-- R58, whole: `touched` affects cost only. Two states that differ only in the flags and the counters step alike, but for the flags
and the counters; a LD returns the byte of `mem`, and a ST writes the data register's byte, whether the address is cold or warm. -/
def Obligations.TouchedAffectsCostOnly : Prop :=
  (∀ s s' : State, AgreeButCost s s' →
    (∀ t, step s = .next t → ∃ t', step s' = .next t' ∧ AgreeButCost t t') ∧
    (∀ f, step s = .fault f → step s' = .fault f)) ∧
  (∀ (ra rb : Reg) (s : State), ∃ t, exec (.ld ra rb) s = .next t ∧ t.readReg ra = s.memRead (s.effAddr rb)) ∧
  (∀ (ra rb : Reg) (s : State), Memory.wf s.mem = true → ∃ t, exec (.st ra rb) s = .next t ∧ t.memRead (s.effAddr ra) = s.readReg rb)

/-- R64, whole: no instruction changes the instruction store; the only step that writes it is the resolver's, before the first fetch. -/
def Obligations.StoresNeverChangeInstructions : Prop :=
  (∀ (i : Instr) (s t : State), exec i s = .next t → t.program = s.program) ∧
  (∀ s t : State, s.status ≠ .idle → step s = .next t → t.program = s.program) ∧
  (∀ s t : State, step s = .next t → t.program ≠ s.program →
    s.status = .idle ∧ ∃ p, s.program = .unresolved p ∧ t.program = .resolved (resolve p))

/-- R38: the counters never decrease in a step. -/
def Obligations.CountersNeverDecrease : Prop :=
  ∀ s t : State, step s = .next t →
    s.instret ≤ t.instret ∧ s.cycles ≤ t.cycles ∧ s.localHits ≤ t.localHits ∧ s.ldst ≤ t.ldst

/-! ### The loop -/

/-- R131: while Running with `pc` in range, a step is the decoded instruction, after the fetch is counted. -/
def Obligations.StepRunsTheDecodedInstruction : Prop :=
  ∀ (s : State) (p : ResolvedProgram) (e : Entry) (i : Instr), s.status = .running → s.program = .resolved p →
    p.entries[s.pc.toNat]? = some e → decode e.word = .ok i → step s = exec i { s with instret := s.instret + 1 }

/-- R134, R135: while Running with `pc` outside 0..LEN-1 a step only sets `status`; nothing is fetched or counted. -/
def Obligations.LoopTestEndsTheRun : Prop :=
  ∀ (s : State) (p : ResolvedProgram), s.status = .running → s.program = .resolved p → p.entries.length ≤ s.pc.toNat →
    step s = .next { s with status := .halted }

/-- U7, log 8: an Invalid word at `pc` while Running, which no run reaches (ExecutionCannotFail), is a fault. -/
def Obligations.InvalidWordAtFetchFaults : Prop :=
  ∀ (s : State) (p : ResolvedProgram) (e : Entry), s.status = .running → s.program = .resolved p →
    p.entries[s.pc.toNat]? = some e → isInvalid e.word = true → step s = .fault .invalidWord

/-- Log 7 (the model's own set-up): `withFetchWord` makes the next step run the table word's instruction. -/
def Obligations.PlacedWordRunsNext : Prop :=
  ∀ (s : State) (nbits w : Nat) (i : Instr), decodeTableWord nbits w = some i →
    step (s.withFetchWord nbits w) = exec i { s.withFetchWord nbits w with instret := s.instret + 1 }

/-- R137: the empty program halts at once with everything at its reset value. The first step is the host's start acted on (log 4). -/
def Obligations.EmptyProgramHaltsAtOnce : Prop :=
  StepsTo 2 (boot []) { State.reset with program := .resolved ⟨[]⟩, status := .halted } ∧
    ∀ t, StepsTo 1 (boot []) t → t = { State.reset with program := .resolved ⟨[]⟩, status := .running }

/-- R141: a straight-line program executes each instruction once, in index order, and halts with `instret = LEN`. The first of the
steps counted is the start acted on: validation and resolution are one step (log 4). -/
def Obligations.StraightLineProgramsHalt : Prop :=
  ∀ img : Image, img.length ≤ 65535 →
    (∀ e ∈ img, ∃ i, decode e.word = .ok i ∧ straight i = true) →
    (∀ k, k ≤ img.length → ∃ t, StepsTo (1 + k) (boot img) t ∧ t.status = .running ∧ t.pc.toNat = k ∧
      t.instret = k ∧ t.program = .resolved ⟨img⟩) ∧
    ∃ t, StepsTo (1 + img.length + 1) (boot img) t ∧ t.status = .halted ∧ t.instret = img.length

/-- R136: a JMP to its own index, and a taken JE to its own index, repeat for ever: after every number of steps the machine is still
Running, at the same `pc`, with that many more instructions and cycles. -/
def Obligations.SelfBranchDiverges : Prop :=
  ∀ (s : State) (p : ResolvedProgram) (e : Entry), s.status = .running → s.program = .resolved p →
    p.entries[s.pc.toNat]? = some e → (decode e.word = .ok (.jmp s.pc) ∨ (decode e.word = .ok (.je s.pc) ∧ s.eq = true)) →
    ∀ n, StepsTo n s { s with instret := s.instret + n, cycles := s.cycles + n }

/-! ### Load-time validation and the resolver -/

/-- R221, R225: on the start, an Invalid entry rejects the image, whether a run would reach it or not: `status` and `rej_index`,
the lowest Invalid index, are written, and nothing else (log 4: the start is acted on). -/
def Obligations.InvalidImageIsRejected : Prop :=
  ∀ (s : State) (p : UnresolvedProgram) (k : Nat) (e : Entry), s.status = .idle → s.startPending = true →
    s.program = .unresolved p → p.entries[k]? = some e → isInvalid e.word = true →
    (∀ j f, j < k → p.entries[j]? = some f → isInvalid f.word = false) →
    step s = .next { s with status := .rejected, rejIndex := k, startPending := false }

/-- R40's Idle row, R253: on the start of an image whose every entry decodes, the resolver runs and the run phase begins (log 4:
both in one step). -/
def Obligations.ValidImageIsResolvedAndRuns : Prop :=
  ∀ (s : State) (p : UnresolvedProgram), s.status = .idle → s.startPending = true → s.program = .unresolved p →
    (∀ e ∈ p.entries, isInvalid e.word = false) →
    step s = .next { s with program := .resolved (resolve p), status := .running, startPending := false }

/-- R40 (log 4, log 6): every change of `status` is one of its table's rows; Halted and Rejected are left by reset only; reset leads
to the reset state from anywhere. -/
def Obligations.StatusChangesByTheTable : Prop :=
  (∀ (e : Event) (s t : State), react e s = .next t → t.status ≠ s.status →
    (e = .host .reset ∧ t.status = .idle) ∨
    (e = .clock ∧ s.status = .idle ∧ s.startPending = true ∧ (t.status = .running ∨ t.status = .rejected)) ∨
    (e = .clock ∧ s.status = .running ∧ s.len ≤ s.pc.toNat ∧ t.status = .halted)) ∧
  (∀ (e : Event) (s : State), s.status = .halted ∨ s.status = .rejected → e ≠ .host .reset → react e s = .next s) ∧
  (∀ s : State, react (.host .reset) s = .next State.reset) ∧
  (∀ (e : Event) (s t : State), s.status = .running → react e s = .next t → e = .clock ∨ e = .host .reset ∨ t = s)

/-- R180, R181: the target of a branch whose line number some entry carries is the lowest such index; a later entry with the same
number is the target of no branch. -/
def Obligations.LowestMatchingLineIsTheTarget : Prop :=
  (∀ (p : UnresolvedProgram) (k j : Nat) (b e : Entry), p.entries.length ≤ 65535 → p.entries[k]? = some b →
    isBranchWord b.word = true → p.entries[j]? = some e → e.line = tgtField b.word →
    (∀ i f, i < j → p.entries[i]? = some f → f.line ≠ tgtField b.word) →
    ∃ r, (resolve p).entries[k]? = some r ∧ (tgtField r.word).toNat = j) ∧
  (∀ (p : UnresolvedProgram) (i j k : Nat) (e f r : Entry), p.entries.length ≤ 65535 → i < j → p.entries[i]? = some e →
    p.entries[j]? = some f → e.line = f.line → (resolve p).entries[k]? = some r → isBranchWord r.word = true →
    (tgtField r.word).toNat ≠ j)

/-- R182: a branch to a line number no entry carries gets the target `LEN`, and taking it ends the run normally: the branch is
counted and nothing after it. -/
def Obligations.MissingLineEndsTheRun : Prop :=
  (∀ (p : UnresolvedProgram) (k : Nat) (b : Entry), p.entries.length ≤ 65535 → p.entries[k]? = some b →
    isBranchWord b.word = true → (∀ e ∈ p.entries, e.line ≠ tgtField b.word) →
    ∃ r, (resolve p).entries[k]? = some r ∧ (tgtField r.word).toNat = p.entries.length) ∧
  (∀ (s : State) (p : ResolvedProgram) (e : Entry) (tgt : Index), s.status = .running → s.program = .resolved p →
    p.entries[s.pc.toNat]? = some e →
    (decode e.word = .ok (.jmp tgt) ∨ (decode e.word = .ok (.je tgt) ∧ s.eq = true)) → tgt.toNat = p.entries.length →
    ∃ t, StepsTo 2 s t ∧ t.status = .halted ∧ t.instret = s.instret + 1 ∧ t.cycles = s.cycles + 1)

/-- R183, whole: after the resolver every branch target is in 0..LEN; a value below LEN names an instruction; LEN names none and ends
the run when it reaches `pc`. -/
def Obligations.ResolvedTargetsAreInRange : Prop :=
  (∀ (p : UnresolvedProgram) (e : Entry), p.entries.length ≤ 65535 → e ∈ (resolve p).entries → isBranchWord e.word = true →
    (tgtField e.word).toNat ≤ p.entries.length ∧
    ((tgtField e.word).toNat < p.entries.length → ∃ f, (resolve p).entries[(tgtField e.word).toNat]? = some f) ∧
    ((tgtField e.word).toNat = p.entries.length → (resolve p).entries[(tgtField e.word).toNat]? = none)) ∧
  (∀ (s : State) (p : ResolvedProgram), s.status = .running → s.program = .resolved p → s.pc.toNat = p.entries.length →
    ∃ t, step s = .next t ∧ t.status = .halted ∧ t.pc = s.pc)

/-- R185, R180: the resolver writes only bits 15:0 of JE and JMP words and never a tag; what becomes of one entry depends on that entry's
word and the tags alone, so not on whether other branches have been resolved; the start changes nothing else. -/
def Obligations.ResolverWritesTargetsOnly : Prop :=
  (∀ p : UnresolvedProgram, (resolve p).entries.map (·.line) = p.entries.map (·.line)) ∧
  (∀ (p : UnresolvedProgram) (k : Nat) (e r : Entry), p.entries[k]? = some e → (resolve p).entries[k]? = some r →
    opField r.word = opField e.word ∧ mbzJ r.word = mbzJ e.word ∧ (isBranchWord e.word = false → r.word = e.word)) ∧
  (∀ (p q : UnresolvedProgram) (k : Nat), p.entries.map (·.line) = q.entries.map (·.line) → p.entries[k]? = q.entries[k]? →
    (resolve p).entries[k]? = (resolve q).entries[k]?) ∧
  (∀ s t : State, s.status = .idle → step s = .next t → t.regs = s.regs ∧ t.eq = s.eq ∧ t.mem = s.mem ∧
    t.touched = s.touched ∧ t.instret = s.instret ∧ t.cycles = s.cycles ∧ t.localHits = s.localHits ∧ t.ldst = s.ldst)

/-- R89, R88, R191: a word that decodes is resolved to a word that decodes to the resolved instruction, which differs at most in a
branch's target, now the number of the resolved target; and resolving makes no word Invalid, nor an Invalid word valid. -/
def Obligations.ResolvingKeepsTheInstruction : Prop :=
  ∀ (img : Image) (w : IWord),
    isInvalid (resolveWord img w) = isInvalid w ∧
    (∀ i, decode w = .ok i →
      decode (resolveWord img w) = .ok (resolveInstr img ⟨i⟩).instr ∧
      (resolveInstr img ⟨i⟩).instr = (match i with
        | .je l => .je (targetIndex (resolveTarget img l))
        | .jmp l => .jmp (targetIndex (resolveTarget img l))
        | j => j))

/-- R191, R45, R184: the run phase takes resolved programs only, and only the resolver makes one. While Running an unresolved program
makes no step, and neither does a start on a resolved one (log 21: the fault `wrongForm`); an event leaves a resolved program where
none was only as the start's step out of Idle, and it is the resolver's; and in every reachable state the form is the phase's, so
neither fault is reached, and every instruction of a program in a run is a resolved one. -/
def Obligations.OnlyResolvedProgramsRun : Prop :=
  (∀ (s : State) (p : UnresolvedProgram), s.status = .running → s.program = .unresolved p → step s = .fault .wrongForm) ∧
  (∀ (s : State) (p : ResolvedProgram), s.status = .idle → s.startPending = true → s.program = .resolved p →
    step s = .fault .wrongForm) ∧
  (∀ (e : Event) (s t : State) (p : ResolvedProgram), react e s = .next t → t.program = .resolved p →
    s.program = .resolved p ∨ (e = .clock ∧ s.status = .idle ∧ ∃ q, s.program = .unresolved q ∧ p = resolve q)) ∧
  (∀ s : State, Reachable s →
    (s.status = .running ∨ s.status = .halted →
      ∃ p, s.program = .resolved p ∧ ∀ e ∈ p.entries, ∃ i : ResolvedInstr p.entries.length, decode e.word = .ok i.instr) ∧
    (s.status = .idle ∨ s.status = .rejected → ∃ p, s.program = .unresolved p))

/-! ### Invariants and reachable states -/

/-- R250: the reset state, for every row to which the table gives a value. -/
def Obligations.ResetValues : Prop :=
  (∀ r : Reg, State.reset.readReg r = 0x00#8) ∧ State.reset.pc = 0#16 ∧ State.reset.eq = false ∧
  (∀ a : Nat, State.reset.memRead a = 0x00#8) ∧ (∀ a : Nat, State.reset.isTouched a = false) ∧
  State.reset.instret = 0 ∧ State.reset.cycles = 0 ∧ State.reset.localHits = 0 ∧ State.reset.ldst = 0 ∧
  State.reset.status = .idle

/-- The invariant holds of the reset state. -/
def Obligations.ResetHasTheInvariant : Prop := Inv State.reset

/-- The model's own form (log 16): the memory and the flags keep their canonical form in every step, from every state that has it. -/
def Obligations.StepKeepsTheStorageForm : Prop :=
  ∀ s t : State, StorageInv s → step s = .next t → StorageInv t

/-- R39 and R140: the relations between the counters are kept by every step, from every state that has them. -/
def Obligations.StepKeepsTheCounterRelations : Prop :=
  ∀ s t : State, CounterInv s → step s = .next t → CounterInv t

/-- The whole invariant (storage form, counter relations, phases: valid resolved image, `pc` in 0..LEN) is kept by every step. -/
def Obligations.StepKeepsTheInvariant : Prop := ∀ s t : State, Inv s → step s = .next t → Inv t

/-- R40, R235 (log 6): the invariant is kept by every input of the host. -/
def Obligations.HostInputsKeepTheInvariant : Prop :=
  ∀ (h : HostInput) (s t : State), Inv s → hostApply h s = .next t → Inv t

/-- R138, whole, and R88: from a state with the invariant, so in every reachable state, a step answers a next state: no Invalid word is ever
fetched, no address is out of range; a Running machine stays Running or halts. An instruction answers a next state from any state. -/
def Obligations.ExecutionCannotFail : Prop :=
  (∀ s : State, Inv s → Steps s) ∧
  (∀ s : State, Reachable s → Steps s) ∧
  (∀ s t : State, s.status = .running → step s = .next t → t.status = .running ∨ t.status = .halted) ∧
  (∀ (i : Instr) (s : State), ∃ t, exec i s = .next t) ∧
  (∀ (i : Instr) (s : State) (a : Nat), dataAddress i s = some a → a < 256)

/-- R29, whole: `pc` is in 0..LEN in every reachable state, and is LEN when the run has halted. -/
def Obligations.PcStaysInRange : Prop :=
  ∀ s : State, Reachable s → s.pc.toNat ≤ s.len ∧ (s.status = .halted → s.pc.toNat = s.len)

/-- R39 and R140, whole: the relations between the counters, and the number of touched addresses, in every reachable state. -/
def Obligations.CounterRelations : Prop :=
  ∀ s : State, Reachable s →
    s.ldst ≤ s.instret ∧ s.localHits ≤ s.ldst ∧
    s.ldst - s.localHits = ((List.range 256).filter fun a => s.isTouched a).length ∧
    s.ldst - s.localHits ≤ 256 ∧
    s.cycles = (s.instret - s.ldst) * 1 + (s.ldst - s.localHits) * 50 + s.localHits * 2

/-- R139, whole: while no LD and no ST has executed, `cycles = instret`, branches included. -/
def Obligations.CyclesEqualInstructionsWithoutMemory : Prop :=
  ∀ s : State, Reachable s → s.ldst = 0 → s.cycles = s.instret

/-- R221, R226: in every reachable Rejected state all of the CPU state is at its reset values, and `rej_index` is the lowest Invalid index. -/
def Obligations.RejectionRunsNothing : Prop :=
  ∀ s : State, Reachable s → s.status = .rejected →
    CpuAtReset s ∧ (∃ e, s.image[s.rejIndex]? = some e ∧ isInvalid e.word = true) ∧
    (∀ j e, j < s.rejIndex → s.image[j]? = some e → isInvalid e.word = false)

/-- R228, R235, R236: the report exists exactly after a halt and is the four counters; a rejection can be read exactly in
Rejected (log 17). -/
def Obligations.ReportOnlyAfterAHalt : Prop :=
  (∀ (s : State) (r : Report), report s = some r ↔
    s.status = .halted ∧ r = ⟨s.instret, s.cycles, s.localHits, s.ldst⟩) ∧
  (∀ s : State, (rejection s).isSome = true ↔ s.status = .rejected)

/-! ### The assembler -/

/-- R100 to R114, R120: the printed line of an instruction parses to that instruction's word and the line number, under either
setting of `imm_out_of_range`. -/
def Obligations.ParseOfPrintedLine : Prop :=
  ∀ (p : ImmPolicy) (l : LineNo) (i : Instr), parseLine p (lineText l i) = .ok (some ⟨encode i, l⟩)

/-- R255, whole: an image assembled from text passes validation; it holds only words of the eight instructions. -/
def Obligations.AssembledImagesAreValid : Prop :=
  ∀ (p : ImmPolicy) (text : List Char) (img : Image), assemble p text = .image img →
    firstInvalid img = none ∧ img.length ≤ 65535 ∧ ∀ e ∈ img, ∃ i, e.word = encode i

/-- R117: a malformed line anywhere rejects the whole text, and the first one in file order is the one reported, by
its position (log 11) and its sub-cause (log 10). -/
def Obligations.OneBadLineRejectsTheText : Prop :=
  ∀ (p : ImmPolicy) (lines : List (List Char)) (k : Nat) (raw : List Char) (why : LineError),
    lines[k]? = some raw → parseLine p raw = .error why →
    (∀ j l, j < k → lines[j]? = some l → ∃ r, parseLine p l = .ok r) →
    assembleLines p lines = .rejected k raw why

/-- R101, R115: brackets are delimiters and nothing else: a line with its brackets replaced by spaces has the same meaning. -/
def Obligations.BracketsAreOnlyDelimiters : Prop :=
  ∀ (p : ImmPolicy) (line : List Char),
    parseLine p (line.map fun c => if c = '[' ∨ c = ']' then ' ' else c) = parseLine p line

/-- R116: a number outside [-128, 127] rejects MOV and ADD with `reject`, and narrows to a byte with `wrap`; a number inside has
the same meaning with both. -/
def Obligations.ImmediateOutOfRangePolicy : Prop :=
  ∀ (r : Reg) (b : Token) (n : Int), intToken b = some n →
    parseTwo .wrap .mov (regText r) b = .ok (.mov r (byteOfInt n)) ∧
    parseTwo .wrap .add (regText r) b = .ok (.addi r (byteOfInt n)) ∧
    (-128 ≤ n ∧ n ≤ 127 → parseTwo .reject .mov (regText r) b = .ok (.mov r (byteOfInt n)) ∧
      parseTwo .reject .add (regText r) b = .ok (.addi r (byteOfInt n))) ∧
    (n < -128 ∨ 127 < n → parseTwo .reject .mov (regText r) b = .error .immOutOfRange ∧
      parseTwo .reject .add (regText r) b = .error .immOutOfRange)
end

