-- ==== Sys2Proof/Laws/Assembler.lean ====
section
/-! SUPPORT. The tokeniser on pieces of a line, and what number and register tokens read as (R101, R103, R107, R108, R120). -/

namespace Sys2Proof.Machine

/-! ### Tokens -/

theorem foldr_tokenStep {t : List Char} (h : ∀ c ∈ t, isDelimiter c = false) (p : Token × List Token) :
    t.foldr tokenStep p = (t ++ p.1, p.2) := by
  induction t with
  | nil => rfl
  | cons c cs ih =>
    simp only [List.mem_cons, forall_eq_or_imp] at h
    simp [ih h.2, tokenStep, h.1]

/-- A run of non-delimiters up to a delimiter is one token (R101). -/
theorem tokens_append {t : Token} {c : Char} {rest : List Char} (hne : t ≠ []) (h : ∀ d ∈ t, isDelimiter d = false)
    (hc : isDelimiter c = true) : tokens (t ++ c :: rest) = t :: tokens rest := by
  unfold tokens
  simp only [List.foldr_append, List.foldr_cons, foldr_tokenStep h, tokenStep, hc, if_true, List.append_nil]
  cases t with
  | nil => exact absurd rfl hne
  | cons a as => rfl

/-- A delimiter before a line yields no token (R101). -/
theorem tokens_cons_delimiter {c : Char} {rest : List Char} (hc : isDelimiter c = true) :
    tokens (c :: rest) = tokens rest := by
  unfold tokens
  simp [tokenStep, hc, consToken]

/-- A run of non-delimiters up to the end of the line is one token (R101). -/
theorem tokens_last {t : Token} (hne : t ≠ []) (h : ∀ d ∈ t, isDelimiter d = false) : tokens t = [t] := by
  unfold tokens
  simp only [foldr_tokenStep h, List.append_nil]
  cases t with
  | nil => exact absurd rfl hne
  | cons a as => rfl

/-! ### Numbers -/

theorem digitValue_digitChar {d : Nat} (h : d < 10) : digitValue (digitChar d) = some d := by
  interval_cases d <;> rfl

/-- What the characters of a printed number are not: a delimiter, a minus sign, the letter of a register. -/
theorem digitChar_plain {d : Nat} (h : d < 10) :
    isDelimiter (digitChar d) = false ∧ digitChar d ≠ '-' ∧ digitChar d ≠ 'R' := by
  interval_cases d <;> decide

theorem decimalFrom_spec {f n : Nat} (acc : List Char) (hf : n < f) :
    ∃ ds, decimalFrom f n acc = ds ++ acc ∧ ds ≠ [] ∧ (∀ c ∈ ds, ∃ d, d < 10 ∧ c = digitChar d) ∧
      ∀ a rest, digitsValue a (ds ++ rest) = digitsValue (a * 10 ^ ds.length + n) rest := by
  induction f generalizing n acc with
  | zero => omega
  | succ f ih =>
    unfold decimalFrom
    by_cases h : n < 10
    · rw [if_pos h]
      refine ⟨[digitChar n], rfl, by simp, by simpa using ⟨n, h, rfl⟩, fun a rest => ?_⟩
      simp [digitsValue, digitValue_digitChar h]
    · rw [if_neg h]
      obtain ⟨ds, h1, h2, h3, h4⟩ := ih (digitChar (n % 10) :: acc) (show n / 10 < f by omega)
      have hm : n % 10 < 10 := Nat.mod_lt _ (by omega)
      refine ⟨ds ++ [digitChar (n % 10)], by rw [h1]; simp, by simp, fun c hc => ?_, fun a rest => ?_⟩
      · rcases List.mem_append.mp hc with hc | hc
        · exact h3 c hc
        · exact ⟨_, hm, by simpa using hc⟩
      · rw [List.append_assoc, h4]
        simp only [List.singleton_append, digitsValue, digitValue_digitChar hm]
        congr 1
        simp only [List.length_append, List.length_singleton, pow_succ]
        have : a * (10 ^ ds.length * 10) = (a * 10 ^ ds.length) * 10 := by ring
        omega

/-- A printed number is a non-empty run of digits that reads as the number (R103). -/
theorem decimal_spec (n : Nat) :
    decimal n ≠ [] ∧ (∀ c ∈ decimal n, ∃ d, d < 10 ∧ c = digitChar d) ∧ natToken (decimal n) = some n := by
  obtain ⟨ds, h1, h2, h3, h4⟩ := decimalFrom_spec (f := n + 1) (n := n) [] (by omega)
  have hd : decimal n = ds := by
    unfold decimal
    rw [h1, List.append_nil]
  have hv := h4 0 []
  simp only [List.append_nil, Nat.zero_mul, Nat.zero_add, digitsValue] at hv
  rw [hd]
  refine ⟨h2, h3, ?_⟩
  cases ds with
  | nil => exact absurd rfl h2
  | cons c cs => exact hv

theorem decimal_noDelimiter (n : Nat) : ∀ c ∈ decimal n, isDelimiter c = false := by
  intro c hc
  obtain ⟨d, hd, rfl⟩ := (decimal_spec n).2.1 c hc
  exact (digitChar_plain hd).1

/-- A printed line number reads as itself (R103, R112). -/
theorem lineToken_decimal (l : LineNo) : lineToken (decimal l.toNat) = some l := by
  have := l.isLt
  simp only [lineToken, (decimal_spec _).2.2]
  rw [if_pos (by omega)]
  simp

/-- A printed natural number reads as itself in a number position (R108). -/
theorem intToken_decimal (n : Nat) : intToken (decimal n) = some (n : Int) := by
  obtain ⟨h1, h2, h3⟩ := decimal_spec n
  cases hd : decimal n with
  | nil => exact absurd hd h1
  | cons c cs =>
    rw [hd] at h2 h3
    obtain ⟨d, hd', rfl⟩ := h2 c (by simp)
    simp only [intToken, if_neg (digitChar_plain hd').2.1, h3]

/-- A printed integer reads as itself (R108), is one token, and does not begin with `R` (R110). -/
theorem decimalInt_spec (n : Int) :
    intToken (decimalInt n) = some n ∧ decimalInt n ≠ [] ∧ (∀ c ∈ decimalInt n, isDelimiter c = false) ∧
      beginsWithR (decimalInt n) = false := by
  unfold decimalInt
  obtain ⟨h1, h2, h3⟩ := decimal_spec n.natAbs
  by_cases h : n < 0
  · rw [if_pos h]
    refine ⟨?_, by simp, fun c hc => ?_, rfl⟩
    · simp only [intToken, if_true, h3, Option.some.injEq]
      omega
    · rcases List.mem_cons.mp hc with rfl | hc
      · decide
      · exact decimal_noDelimiter _ c hc
  · rw [if_neg h, intToken_decimal]
    refine ⟨by simp only [Option.some.injEq]; omega, h1, decimal_noDelimiter _, ?_⟩
    cases hd : decimal n.natAbs with
    | nil => rfl
    | cons c cs =>
      rw [hd] at h2
      obtain ⟨d, hd', rfl⟩ := h2 c (by simp)
      simp [beginsWithR, (digitChar_plain hd').2.2]

/-! ### Registers -/

/-- A printed register reads as itself, is one token, and begins with `R` (R107, R110). -/
theorem regText_spec (r : Reg) :
    regToken (regText r) = some r ∧ beginsWithR (regText r) = true ∧ regText r ≠ [] ∧
      ∀ c ∈ regText r, isDelimiter c = false := by
  have hd : r.val + 1 < 10 := by omega
  refine ⟨?_, rfl, by simp [regText], fun c hc => ?_⟩
  · fin_cases r <;> rfl
  · simp only [regText, List.mem_cons, List.not_mem_nil, or_false] at hc
    rcases hc with rfl | rfl
    · rfl
    · exact (digitChar_plain hd).1

end Sys2Proof.Machine
end

