-- ==== Sys2Proof/Laws/Decode.lean ====
section
/-! SUPPORT. The fields of a word as numbers, the fields of an encoded word, and what the bits under a row's mask say (R82, R85, R121). -/

namespace Sys2Proof

theorem opField_toNat (w : IWord) : (opField w).toNat = w.toNat / 2 ^ 28 := by
  have := w.isLt
  simp only [opField, BitVec.extractLsb'_toNat, Nat.shiftRight_eq_div_pow]
  omega

theorem raField_toNat (w : IWord) : (raField w).toNat = w.toNat / 2 ^ 25 % 8 := by
  simp only [raField, BitVec.extractLsb'_toNat, Nat.shiftRight_eq_div_pow]

theorem rbField_toNat (w : IWord) : (rbField w).toNat = w.toNat / 2 ^ 22 % 8 := by
  simp only [rbField, BitVec.extractLsb'_toNat, Nat.shiftRight_eq_div_pow]

theorem immField_toNat (w : IWord) : (immField w).toNat = w.toNat % 2 ^ 8 := by
  simp [immField, BitVec.extractLsb'_toNat]

theorem tgtField_toNat (w : IWord) : (tgtField w).toNat = w.toNat % 2 ^ 16 := by
  simp [tgtField, BitVec.extractLsb'_toNat]

theorem mbzRI_toNat (w : IWord) : (mbzRI w).toNat = w.toNat / 2 ^ 8 % 2 ^ 17 := by
  simp only [mbzRI, BitVec.extractLsb'_toNat, Nat.shiftRight_eq_div_pow]

theorem mbzRR_toNat (w : IWord) : (mbzRR w).toNat = w.toNat % 2 ^ 22 := by
  simp [mbzRR, BitVec.extractLsb'_toNat]

theorem mbzJ_toNat (w : IWord) : (mbzJ w).toNat = w.toNat / 2 ^ 16 % 2 ^ 12 := by
  simp only [mbzJ, BitVec.extractLsb'_toNat, Nat.shiftRight_eq_div_pow]

theorem encodeRI_toNat (op : Nat) (rd : Reg) (imm : Byte) (h : op < 16) :
    (encodeRI op rd imm).toNat = op * 2 ^ 28 + rd.val * 2 ^ 25 + imm.toNat := by
  have := imm.isLt
  have := rd.isLt
  simp only [encodeRI, BitVec.toNat_ofNat]
  omega

theorem encodeRR_toNat (op : Nat) (ra rb : Reg) (h : op < 16) :
    (encodeRR op ra rb).toNat = op * 2 ^ 28 + ra.val * 2 ^ 25 + rb.val * 2 ^ 22 := by
  have := ra.isLt
  have := rb.isLt
  simp only [encodeRR, BitVec.toNat_ofNat]
  omega

theorem encodeJ_toNat (op : Nat) (tgt : Index) (h : op < 16) : (encodeJ op tgt).toNat = op * 2 ^ 28 + tgt.toNat := by
  have := tgt.isLt
  simp only [encodeJ, BitVec.toNat_ofNat]
  omega

theorem regOf_eq_some (f : BitVec 3) (r : Reg) : regOf f = some r ↔ f.toNat = r.val := by
  unfold regOf
  split <;> simp [Fin.ext_iff]
  have := r.isLt
  omega

theorem regOf_eq_none (f : BitVec 3) : regOf f = none ↔ 6 ≤ f.toNat := by
  unfold regOf
  split <;> simp <;> omega

/-- What the bits under format RI's mask say (R85). -/
theorem selects_RI (w : IWord) (op : BitVec 4) :
    (w &&& 0xF1FFFF00#32 = op.setWidth 32 <<< 28) ↔ (opField w = op ∧ mbzRI w = 0) := by
  have hm : w &&& 0xF1FFFF00#32 = ((opField w).setWidth 32 <<< 28) ||| ((mbzRI w).setWidth 32 <<< 8) := by
    ext i hi
    interval_cases i <;> simp [opField, mbzRI]
  rw [hm]
  constructor
  · intro h
    have hb : ∀ i, (((opField w).setWidth 32 <<< 28) ||| ((mbzRI w).setWidth 32 <<< 8)).getLsbD i =
        (op.setWidth 32 <<< 28).getLsbD i := fun i => by rw [h]
    constructor
    · ext i hi
      have := hb (28 + i)
      interval_cases i <;> simpa using this
    · ext i hi
      have := hb (8 + i)
      interval_cases i <;> simpa using this
  · rintro ⟨h1, h2⟩
    simp [h1, h2]

/-- What the bits under format RR's mask say (R85). -/
theorem selects_RR (w : IWord) (op : BitVec 4) :
    (w &&& 0xF03FFFFF#32 = op.setWidth 32 <<< 28) ↔ (opField w = op ∧ mbzRR w = 0) := by
  have hm : w &&& 0xF03FFFFF#32 = ((opField w).setWidth 32 <<< 28) ||| (mbzRR w).setWidth 32 := by
    ext i hi
    interval_cases i <;> simp [opField, mbzRR]
  rw [hm]
  constructor
  · intro h
    have hb : ∀ i, (((opField w).setWidth 32 <<< 28) ||| (mbzRR w).setWidth 32).getLsbD i =
        (op.setWidth 32 <<< 28).getLsbD i := fun i => by rw [h]
    constructor
    · ext i hi
      have := hb (28 + i)
      interval_cases i <;> simpa using this
    · ext i hi
      have := hb i
      interval_cases i <;> simpa using this
  · rintro ⟨h1, h2⟩
    simp [h1, h2]

/-- What the bits under format J's mask say (R85). -/
theorem selects_J (w : IWord) (op : BitVec 4) :
    (w &&& 0xFFFF0000#32 = op.setWidth 32 <<< 28) ↔ (opField w = op ∧ mbzJ w = 0) := by
  have hm : w &&& 0xFFFF0000#32 = ((opField w).setWidth 32 <<< 28) ||| ((mbzJ w).setWidth 32 <<< 16) := by
    ext i hi
    interval_cases i <;> simp [opField, mbzJ]
  rw [hm]
  constructor
  · intro h
    have hb : ∀ i, (((opField w).setWidth 32 <<< 28) ||| ((mbzJ w).setWidth 32 <<< 16)).getLsbD i =
        (op.setWidth 32 <<< 28).getLsbD i := fun i => by rw [h]
    constructor
    · ext i hi
      have := hb (28 + i)
      interval_cases i <;> simpa using this
    · ext i hi
      have := hb (16 + i)
      interval_cases i <;> simpa using this
  · rintro ⟨h1, h2⟩
    simp [h1, h2]

theorem encodeRI_fields (op : BitVec 4) (rd : Reg) (imm : Byte) :
    opField (encodeRI op.toNat rd imm) = op ∧ mbzRI (encodeRI op.toNat rd imm) = 0 ∧
      (raField (encodeRI op.toNat rd imm)).toNat = rd.val ∧ immField (encodeRI op.toNat rd imm) = imm := by
  have h := encodeRI_toNat op.toNat rd imm op.isLt
  have := imm.isLt
  have := rd.isLt
  refine ⟨BitVec.eq_of_toNat_eq ?_, BitVec.eq_of_toNat_eq ?_, ?_, BitVec.eq_of_toNat_eq ?_⟩
  · rw [opField_toNat, h]; omega
  · rw [mbzRI_toNat, h]; simp only [BitVec.ofNat_eq_ofNat, BitVec.toNat_ofNat]; omega
  · rw [raField_toNat, h]; omega
  · rw [immField_toNat, h]; omega

theorem encodeRR_fields (op : BitVec 4) (ra rb : Reg) :
    opField (encodeRR op.toNat ra rb) = op ∧ mbzRR (encodeRR op.toNat ra rb) = 0 ∧
      (raField (encodeRR op.toNat ra rb)).toNat = ra.val ∧ (rbField (encodeRR op.toNat ra rb)).toNat = rb.val := by
  have h := encodeRR_toNat op.toNat ra rb op.isLt
  have := ra.isLt
  have := rb.isLt
  refine ⟨BitVec.eq_of_toNat_eq ?_, BitVec.eq_of_toNat_eq ?_, ?_, ?_⟩
  · rw [opField_toNat, h]; omega
  · rw [mbzRR_toNat, h]; simp only [BitVec.ofNat_eq_ofNat, BitVec.toNat_ofNat]; omega
  · rw [raField_toNat, h]; omega
  · rw [rbField_toNat, h]; omega

theorem encodeJ_fields (op : BitVec 4) (tgt : Index) :
    opField (encodeJ op.toNat tgt) = op ∧ mbzJ (encodeJ op.toNat tgt) = 0 ∧ tgtField (encodeJ op.toNat tgt) = tgt := by
  have h := encodeJ_toNat op.toNat tgt op.isLt
  have := tgt.isLt
  refine ⟨BitVec.eq_of_toNat_eq ?_, BitVec.eq_of_toNat_eq ?_, BitVec.eq_of_toNat_eq ?_⟩
  · rw [opField_toNat, h]; omega
  · rw [mbzJ_toNat, h]; simp only [BitVec.ofNat_eq_ofNat, BitVec.toNat_ofNat]; omega
  · rw [tgtField_toNat, h]; omega

theorem selects_encodeRI (m : String) (op : BitVec 4) (rd : Reg) (imm : Byte) :
    (OpcodeRow.mk m (op.setWidth 32 <<< 28) 0xF1FFFF00#32).selects (encodeRI op.toNat rd imm) = true := by
  obtain ⟨h1, h2, -, -⟩ := encodeRI_fields op rd imm
  exact beq_iff_eq.mpr ((selects_RI _ op).mpr ⟨h1, h2⟩)

theorem selects_encodeRR (m : String) (op : BitVec 4) (ra rb : Reg) :
    (OpcodeRow.mk m (op.setWidth 32 <<< 28) 0xF03FFFFF#32).selects (encodeRR op.toNat ra rb) = true := by
  obtain ⟨h1, h2, -, -⟩ := encodeRR_fields op ra rb
  exact beq_iff_eq.mpr ((selects_RR _ op).mpr ⟨h1, h2⟩)

theorem selects_encodeJ (m : String) (op : BitVec 4) (tgt : Index) :
    (OpcodeRow.mk m (op.setWidth 32 <<< 28) 0xFFFF0000#32).selects (encodeJ op.toNat tgt) = true := by
  obtain ⟨h1, h2, -⟩ := encodeJ_fields op tgt
  exact beq_iff_eq.mpr ((selects_J _ op).mpr ⟨h1, h2⟩)

/-! ### What the decoder answers (R87, R90) -/

theorem isInvalid_eq_true (w : IWord) : isInvalid w = true ↔ ∃ r, decode w = .error r := by
  unfold isInvalid
  cases decode w <;> simp

theorem isInvalid_eq_false (w : IWord) : isInvalid w = false ↔ ∃ i, decode w = .ok i := by
  unfold isInvalid
  cases decode w <;> simp

theorem lt_toNat_iff_regOf (f : BitVec 3) : 5 < f.toNat ↔ regOf f = none := (regOf_eq_none f).symm

theorem decodeRI_error (mk : Reg → Byte → Instr) (w : IWord) :
    (∃ r, decodeRI mk w = .error r) ↔ (mbzRI w ≠ 0 ∨ 5 < (raField w).toNat) := by
  rw [lt_toNat_iff_regOf]
  unfold decodeRI
  by_cases h : mbzRI w = 0
  · rw [if_pos h]
    cases regOf (raField w) <;> simp [h]
  · rw [if_neg h]
    simp only [ne_eq, h, not_false_eq_true, true_or, iff_true]
    exact ⟨_, rfl⟩

theorem decodeRR_error (mk : Reg → Reg → Instr) (w : IWord) :
    (∃ r, decodeRR mk w = .error r) ↔ (mbzRR w ≠ 0 ∨ 5 < (raField w).toNat ∨ 5 < (rbField w).toNat) := by
  rw [lt_toNat_iff_regOf, lt_toNat_iff_regOf]
  unfold decodeRR
  by_cases h : mbzRR w = 0
  · rw [if_pos h]
    cases regOf (raField w) <;> cases regOf (rbField w) <;> simp [h]
  · rw [if_neg h]
    simp only [ne_eq, h, not_false_eq_true, true_or, iff_true]
    exact ⟨_, rfl⟩

theorem decodeJ_error (mk : Index → Instr) (w : IWord) : (∃ r, decodeJ mk w = .error r) ↔ mbzJ w ≠ 0 := by
  unfold decodeJ
  by_cases h : mbzJ w = 0
  · rw [if_pos h]
    simp [h]
  · rw [if_neg h]
    simp only [ne_eq, h, not_false_eq_true, iff_true]
    exact ⟨_, rfl⟩

theorem decodeRI_encodeRI (mk : Reg → Byte → Instr) (op : BitVec 4) (rd : Reg) (imm : Byte) :
    decodeRI mk (encodeRI op.toNat rd imm) = .ok (mk rd imm) := by
  obtain ⟨-, h2, h3, h4⟩ := encodeRI_fields op rd imm
  simp [decodeRI, h2, (regOf_eq_some _ _).mpr h3, h4]

theorem decodeRR_encodeRR (mk : Reg → Reg → Instr) (op : BitVec 4) (ra rb : Reg) :
    decodeRR mk (encodeRR op.toNat ra rb) = .ok (mk ra rb) := by
  obtain ⟨-, h2, h3, h4⟩ := encodeRR_fields op ra rb
  simp [decodeRR, h2, (regOf_eq_some _ _).mpr h3, (regOf_eq_some _ _).mpr h4]

theorem decodeJ_encodeJ (mk : Index → Instr) (op : BitVec 4) (tgt : Index) :
    decodeJ mk (encodeJ op.toNat tgt) = .ok (mk tgt) := by
  obtain ⟨-, h2, h3⟩ := encodeJ_fields op tgt
  simp [decodeJ, h2, h3]

theorem decodeRI_ok {mk : Reg → Byte → Instr} {w : IWord} {i : Instr} (h : decodeRI mk w = .ok i) :
    mbzRI w = 0 ∧ ∃ rd : Reg, (raField w).toNat = rd.val ∧ i = mk rd (immField w) := by
  unfold decodeRI at h
  by_cases hm : mbzRI w = 0
  · rw [if_pos hm] at h
    cases hr : regOf (raField w) with
    | none => simp [hr] at h
    | some rd => exact ⟨hm, rd, (regOf_eq_some _ _).mp hr, by simpa [hr] using h.symm⟩
  · rw [if_neg hm] at h
    cases h

theorem decodeRR_ok {mk : Reg → Reg → Instr} {w : IWord} {i : Instr} (h : decodeRR mk w = .ok i) :
    mbzRR w = 0 ∧ ∃ ra rb : Reg, (raField w).toNat = ra.val ∧ (rbField w).toNat = rb.val ∧ i = mk ra rb := by
  unfold decodeRR at h
  by_cases hm : mbzRR w = 0
  · rw [if_pos hm] at h
    cases ha : regOf (raField w) with
    | none => simp [ha] at h
    | some ra =>
      cases hb : regOf (rbField w) with
      | none => simp [ha, hb] at h
      | some rb =>
        exact ⟨hm, ra, rb, (regOf_eq_some _ _).mp ha, (regOf_eq_some _ _).mp hb, by simpa [ha, hb] using h.symm⟩
  · rw [if_neg hm] at h
    cases h

theorem decodeJ_ok {mk : Index → Instr} {w : IWord} {i : Instr} (h : decodeJ mk w = .ok i) :
    mbzJ w = 0 ∧ i = mk (tgtField w) := by
  unfold decodeJ at h
  by_cases hm : mbzJ w = 0
  · rw [if_pos hm] at h
    exact ⟨hm, by simpa using h.symm⟩
  · rw [if_neg hm] at h
    cases h

/-- The fields of a word that an instruction's operands are read from, with the must-be-zero bits of its format 0 (R82). -/
def FieldsOf (w : IWord) (i : Instr) : Prop :=
  match i with
  | .mov rd imm => mbzRI w = 0 ∧ (raField w).toNat = rd.val ∧ immField w = imm
  | .add ra rb => mbzRR w = 0 ∧ (raField w).toNat = ra.val ∧ (rbField w).toNat = rb.val
  | .addi rd imm => mbzRI w = 0 ∧ (raField w).toNat = rd.val ∧ immField w = imm
  | .cmp ra rb => mbzRR w = 0 ∧ (raField w).toNat = ra.val ∧ (rbField w).toNat = rb.val
  | .je tgt => mbzJ w = 0 ∧ tgtField w = tgt
  | .jmp tgt => mbzJ w = 0 ∧ tgtField w = tgt
  | .ld ra rb => mbzRR w = 0 ∧ (raField w).toNat = ra.val ∧ (rbField w).toNat = rb.val
  | .st ra rb => mbzRR w = 0 ∧ (raField w).toNat = ra.val ∧ (rbField w).toNat = rb.val

/-- Everything a word says when it decodes: its opcode number and its fields (R87). -/
theorem decode_ok {w : IWord} {i : Instr} (h : decode w = .ok i) : (opField w).toNat = i.opNumber ∧ FieldsOf w i := by
  obtain ⟨n, hn⟩ : ∃ n, (opField w).toNat = n := ⟨_, rfl⟩
  rw [decode, hn] at h
  rw [hn]
  match n, h with
  | 0, h => obtain ⟨h1, rd, h2, rfl⟩ := decodeRI_ok h; exact ⟨rfl, h1, h2, rfl⟩
  | 1, h => obtain ⟨h1, ra, rb, h2, h3, rfl⟩ := decodeRR_ok h; exact ⟨rfl, h1, h2, h3⟩
  | 2, h => obtain ⟨h1, rd, h2, rfl⟩ := decodeRI_ok h; exact ⟨rfl, h1, h2, rfl⟩
  | 3, h => obtain ⟨h1, ra, rb, h2, h3, rfl⟩ := decodeRR_ok h; exact ⟨rfl, h1, h2, h3⟩
  | 4, h => obtain ⟨h1, rfl⟩ := decodeJ_ok h; exact ⟨rfl, h1, rfl⟩
  | 5, h => obtain ⟨h1, rfl⟩ := decodeJ_ok h; exact ⟨rfl, h1, rfl⟩
  | 6, h => obtain ⟨h1, ra, rb, h2, h3, rfl⟩ := decodeRR_ok h; exact ⟨rfl, h1, h2, h3⟩
  | 7, h => obtain ⟨h1, ra, rb, h2, h3, rfl⟩ := decodeRR_ok h; exact ⟨rfl, h1, h2, h3⟩
  | n + 8, h => simp [decodeOp] at h

end Sys2Proof
end

