-- ==== Sys2Proof/Laws/HostInputs.lean ====
section
/-! SUPPORT. What an input of the host can do, said once (R40, R235). -/

namespace Sys2Proof.Machine

theorem loadable_eq_true (s : State) : s.loadable = true ↔ s.status = .idle ∧ s.startPending = false := by
  simp [State.loadable]

theorem lengthOk_eq_true (img : Image) : Image.lengthOk img = true ↔ img.length ≤ 65535 := by
  unfold Image.lengthOk Config.maxLen
  exact decide_eq_true_iff

/-- Everything an input of the host can do when it answers a next state: reset; nothing; load an image; give the start. -/
theorem hostApply_cases {h : HostInput} {s t : State} (hx : hostApply h s = .next t) :
    (h = .reset ∧ t = State.reset) ∨ (h ≠ .reset ∧ t = s) ∨
    (∃ img, h = .load img ∧ s.loadable = true ∧ Image.lengthOk img = true ∧ t = { s with program := .unresolved ⟨img⟩ }) ∨
    (h = .start ∧ s.loadable = true ∧ t = { s with startPending := true }) := by
  cases h with
  | reset => exact .inl ⟨rfl, by simpa [hostApply, hostReset, eq_comm] using hx⟩
  | load img =>
    by_cases hl : s.loadable <;> by_cases hk : Image.lengthOk img <;> simp [hostApply, hostLoad, hl, hk] at hx
    · exact .inr (.inr (.inl ⟨img, rfl, hl, hk, hx.symm⟩))
    · exact .inr (.inl ⟨by simp, hx.symm⟩)
    · exact .inr (.inl ⟨by simp, hx.symm⟩)
  | start =>
    by_cases hl : s.loadable <;> simp [hostApply, hostStart, hl] at hx
    · exact .inr (.inr (.inr ⟨rfl, hl, hx.symm⟩))
    · exact .inr (.inl ⟨by simp, hx.symm⟩)

end Sys2Proof.Machine
end

