-- ==== Sys2Proof/Laws/Loader.lean ====
section
/-! SUPPORT. Validation and the resolver: what each search answers, what one word becomes, and the resolver index by index (R180 to R185, R221). -/

namespace Sys2Proof.Machine

theorem firstInvalidFrom_eq_none (i : Nat) (img : Image) :
    firstInvalidFrom i img = none ↔ ∀ e ∈ img, isInvalid e.word = false := by
  induction img generalizing i with
  | nil => simp [firstInvalidFrom]
  | cons e rest ih =>
    unfold firstInvalidFrom
    by_cases h : isInvalid e.word <;> simp [h, ih]

/-- Validation finds nothing exactly when every word decodes (R221). -/
theorem firstInvalid_eq_none (img : Image) : firstInvalid img = none ↔ ∀ e ∈ img, isInvalid e.word = false :=
  firstInvalidFrom_eq_none 0 img

theorem firstInvalidFrom_eq_some (i k : Nat) (img : Image) :
    firstInvalidFrom i img = some k ↔ i ≤ k ∧ (∃ e, img[k - i]? = some e ∧ isInvalid e.word = true) ∧
      ∀ j e, j < k - i → img[j]? = some e → isInvalid e.word = false := by
  induction img generalizing i with
  | nil => simp [firstInvalidFrom]
  | cons e rest ih =>
    unfold firstInvalidFrom
    by_cases h : isInvalid e.word
    · simp only [h, if_true, Option.some.injEq]
      constructor
      · rintro rfl
        exact ⟨le_rfl, ⟨e, by simp, h⟩, fun j f hj => by omega⟩
      · rintro ⟨h1, -, h3⟩
        by_contra hne
        have := h3 0 e (by omega) (by simp)
        simp [h] at this
    · simp only [Bool.not_eq_true] at h
      simp only [h, Bool.false_eq_true, if_false, ih]
      constructor
      · rintro ⟨h1, ⟨f, hf, hi⟩, h3⟩
        refine ⟨by omega, ⟨f, ?_, hi⟩, ?_⟩
        · rw [show k - i = (k - (i + 1)) + 1 by omega]
          simpa using hf
        · intro j g hj hg
          cases j with
          | zero => simp only [List.getElem?_cons_zero, Option.some.injEq] at hg; subst hg; exact h
          | succ j => exact h3 j g (by omega) (by simpa using hg)
      · rintro ⟨h1, ⟨f, hf, hi⟩, h3⟩
        have hk : k - i ≠ 0 := by
          intro hz
          rw [hz] at hf
          simp only [List.getElem?_cons_zero, Option.some.injEq] at hf
          subst hf
          simp [h] at hi
        refine ⟨by omega, ⟨f, ?_, hi⟩, fun j g hj hg => h3 (j + 1) g (by omega) (by simpa using hg)⟩
        rw [show k - i = (k - (i + 1)) + 1 by omega] at hf
        simpa using hf

/-- Validation answers the lowest index of an Invalid word (R221, R225). -/
theorem firstInvalid_eq_some (k : Nat) (img : Image) :
    firstInvalid img = some k ↔ (∃ e, img[k]? = some e ∧ isInvalid e.word = true) ∧
      ∀ j e, j < k → img[j]? = some e → isInvalid e.word = false := by
  simpa [firstInvalid] using firstInvalidFrom_eq_some 0 k img

theorem lineIndexFrom_eq_none (i : Nat) (img : Image) (l : LineNo) :
    lineIndexFrom i img l = none ↔ ∀ e ∈ img, e.line ≠ l := by
  induction img generalizing i with
  | nil => simp [lineIndexFrom]
  | cons e rest ih =>
    unfold lineIndexFrom
    by_cases h : e.line = l <;> simp [h, ih]

theorem lineIndexFrom_eq_some (i k : Nat) (img : Image) (l : LineNo) :
    lineIndexFrom i img l = some k ↔ i ≤ k ∧ (∃ e, img[k - i]? = some e ∧ e.line = l) ∧
      ∀ j e, j < k - i → img[j]? = some e → e.line ≠ l := by
  induction img generalizing i with
  | nil => simp [lineIndexFrom]
  | cons e rest ih =>
    unfold lineIndexFrom
    by_cases h : e.line = l
    · simp only [h, if_true, Option.some.injEq]
      constructor
      · rintro rfl
        exact ⟨le_rfl, ⟨e, by simp, h⟩, fun j f hj => by omega⟩
      · rintro ⟨h1, -, h3⟩
        by_contra hne
        exact h3 0 e (by omega) (by simp) h
    · simp only [h, if_false, ih]
      constructor
      · rintro ⟨h1, ⟨f, hf, hi⟩, h3⟩
        refine ⟨by omega, ⟨f, ?_, hi⟩, ?_⟩
        · rw [show k - i = (k - (i + 1)) + 1 by omega]
          simpa using hf
        · intro j g hj hg
          cases j with
          | zero => simp only [List.getElem?_cons_zero, Option.some.injEq] at hg; subst hg; exact h
          | succ j => exact h3 j g (by omega) (by simpa using hg)
      · rintro ⟨h1, ⟨f, hf, hi⟩, h3⟩
        have hk : k - i ≠ 0 := by
          intro hz
          rw [hz] at hf
          simp only [List.getElem?_cons_zero, Option.some.injEq] at hf
          subst hf
          exact h hi
        refine ⟨by omega, ⟨f, ?_, hi⟩, fun j g hj hg => h3 (j + 1) g (by omega) (by simpa using hg)⟩
        rw [show k - i = (k - (i + 1)) + 1 by omega] at hf
        simpa using hf

/-- A match of the search is an index of the program. -/
theorem lineIndexFrom_lt {img : Image} {l : LineNo} {j : Nat} (h : lineIndexFrom 0 img l = some j) : j < img.length := by
  obtain ⟨-, ⟨e, he, -⟩, -⟩ := (lineIndexFrom_eq_some 0 j img l).mp h
  exact (List.getElem?_eq_some_iff.mp he).1

/-- The number written for a target: the search's index, or `LEN` (R180). -/
theorem targetIndex_resolveTarget (img : Image) (l : LineNo) :
    targetIndex (resolveTarget img l) = BitVec.ofNat 16 ((lineIndexFrom 0 img l).getD img.length) := by
  unfold resolveTarget
  cases h : lineIndexFrom 0 img l with
  | none => rfl
  | some j => simp [lineIndexFrom_lt h, targetIndex]

/-- The target is the lowest matching index, or `LEN` when there is none (R181, R182). -/
theorem resolveTarget_cases (img : Image) (l : LineNo) (h : img.length ≤ 65535) :
    (∃ j e, (targetIndex (resolveTarget img l)).toNat = j ∧ img[j]? = some e ∧ e.line = l ∧
      ∀ i f, i < j → img[i]? = some f → f.line ≠ l) ∨
    ((targetIndex (resolveTarget img l)).toNat = img.length ∧ ∀ e ∈ img, e.line ≠ l) := by
  rw [targetIndex_resolveTarget]
  cases hc : lineIndexFrom 0 img l with
  | none =>
    right
    refine ⟨?_, (lineIndexFrom_eq_none 0 img l).mp hc⟩
    simp only [Option.getD_none, BitVec.toNat_ofNat]
    omega
  | some j =>
    left
    obtain ⟨-, ⟨e, he, hl⟩, hmin⟩ := (lineIndexFrom_eq_some 0 j img l).mp hc
    have hlt := lineIndexFrom_lt hc
    refine ⟨j, e, ?_, he, hl, hmin⟩
    simp only [Option.getD_some, BitVec.toNat_ofNat]
    omega

/-- The target depends on the tags and `LEN` alone (R185). -/
theorem resolveTarget_congr {img img' : Image} (h : img.map (·.line) = img'.map (·.line)) (l : LineNo) :
    targetIndex (resolveTarget img l) = targetIndex (resolveTarget img' l) := by
  have hlen : img.length = img'.length := by simpa using congrArg List.length h
  have hidx : ∀ i : Nat, lineIndexFrom i img l = lineIndexFrom i img' l := by
    clear hlen
    induction img generalizing img' with
    | nil =>
      cases img' with
      | nil => intro i; rfl
      | cons e' r' => simp at h
    | cons e r ih =>
      cases img' with
      | nil => simp at h
      | cons e' r' =>
        simp only [List.map_cons, List.cons.injEq] at h
        intro i
        simp only [lineIndexFrom, h.1, ih h.2]
  simp only [targetIndex_resolveTarget, hidx, hlen]

/-! ### One word -/

theorem withTarget_toNat (w : IWord) (t : Index) : (withTarget w t).toNat = w.toNat / 2 ^ 16 * 2 ^ 16 + t.toNat := by
  have := w.isLt
  have := t.isLt
  simp only [withTarget, BitVec.toNat_ofNat]
  omega

/-- Only bits 15:0 change, and they become the target (R180, R185). -/
theorem withTarget_fields (w : IWord) (t : Index) :
    opField (withTarget w t) = opField w ∧ mbzJ (withTarget w t) = mbzJ w ∧ tgtField (withTarget w t) = t := by
  have h := withTarget_toNat w t
  have := w.isLt
  have := t.isLt
  refine ⟨BitVec.eq_of_toNat_eq ?_, BitVec.eq_of_toNat_eq ?_, BitVec.eq_of_toNat_eq ?_⟩
  · rw [opField_toNat, opField_toNat, h]; omega
  · rw [mbzJ_toNat, mbzJ_toNat, h]; omega
  · rw [tgtField_toNat, h]; omega

theorem resolveWord_of_branch {img : Image} {w : IWord} (h : isBranchWord w = true) :
    resolveWord img w = withTarget w (targetIndex (resolveTarget img (tgtField w))) := by
  simp [resolveWord, h]

theorem resolveWord_of_other {img : Image} {w : IWord} (h : isBranchWord w = false) : resolveWord img w = w := by
  simp [resolveWord, h]

/-- The resolver keeps `op` and bits 27:16 of every word (R180). -/
theorem resolveWord_fields (img : Image) (w : IWord) :
    opField (resolveWord img w) = opField w ∧ mbzJ (resolveWord img w) = mbzJ w := by
  cases h : isBranchWord w with
  | true =>
    rw [resolveWord_of_branch h]
    exact ⟨(withTarget_fields w _).1, (withTarget_fields w _).2.1⟩
  | false =>
    rw [resolveWord_of_other h]
    exact ⟨rfl, rfl⟩

theorem isBranchWord_resolveWord (img : Image) (w : IWord) : isBranchWord (resolveWord img w) = isBranchWord w := by
  simp only [isBranchWord, (resolveWord_fields img w).1]

/-- A word that decodes is a branch word exactly when its instruction is JE or JMP. -/
theorem isBranchWord_of_decode {w : IWord} {i : Instr} (h : decode w = .ok i) :
    isBranchWord w = (i.opNumber == 4 || i.opNumber == 5) := by
  have hop : opField w = BitVec.ofNat 4 i.opNumber := by
    apply BitVec.eq_of_toNat_eq
    rw [(decode_ok h).1]
    cases i <;> rfl
  unfold isBranchWord
  rw [hop]
  cases i <;> rfl

/-! ### The whole image -/

@[simp] theorem resolve_length (p : UnresolvedProgram) : (resolve p).entries.length = p.entries.length := by simp [resolve]

@[simp] theorem resolve_getElem? (p : UnresolvedProgram) (k : Nat) :
    (resolve p).entries[k]? = (p.entries[k]?).map fun e => { e with word := resolveWord p.entries e.word } := by
  simp [resolve]

/-- Entry `k` of the resolved program, when entry `k` is a branch (R180). -/
theorem resolve_branch {p : UnresolvedProgram} {k : Nat} {b : Entry} (h : p.entries[k]? = some b)
    (hb : isBranchWord b.word = true) :
    ∃ r, (resolve p).entries[k]? = some r ∧ r.line = b.line ∧
      tgtField r.word = targetIndex (resolveTarget p.entries (tgtField b.word)) := by
  refine ⟨{ b with word := resolveWord p.entries b.word }, by rw [resolve_getElem?, h]; rfl, rfl, ?_⟩
  simp only [resolveWord_of_branch hb, (withTarget_fields _ _).2.2]

end Sys2Proof.Machine
end

