-- ==== Sys2Proof/Laws/PerInstr.lean ====
section
/-! SUPPORT. The statements made of every instruction as syntax, one lemma per constructor of `Instr`. -/

namespace Sys2Proof

namespace Laws.Encoding

/-- The word of an instruction is selected by the instruction's own row of the opcode map: its `op` and its must-be-zero bits are
the row's (R85). -/
def Statement (i : Instr) : Prop := i.row ∈ opcodeRows ∧ i.row.selects (encode i) = true

theorem mov (rd : Reg) (imm : Byte) : Statement (.mov rd imm) := 
  ⟨by simp [opcodeRows, Instr.row], selects_encodeRI _ 0x0#4 rd imm⟩
theorem add (ra rb : Reg) : Statement (.add ra rb) := 
  ⟨by simp [opcodeRows, Instr.row], selects_encodeRR _ 0x1#4 ra rb⟩
theorem addi (rd : Reg) (imm : Byte) : Statement (.addi rd imm) := 
  ⟨by simp [opcodeRows, Instr.row], selects_encodeRI _ 0x2#4 rd imm⟩
theorem cmp (ra rb : Reg) : Statement (.cmp ra rb) := 
  ⟨by simp [opcodeRows, Instr.row], selects_encodeRR _ 0x3#4 ra rb⟩
theorem je (tgt : Index) : Statement (.je tgt) := 
  ⟨by simp [opcodeRows, Instr.row], selects_encodeJ _ 0x4#4 tgt⟩
theorem jmp (tgt : Index) : Statement (.jmp tgt) := 
  ⟨by simp [opcodeRows, Instr.row], selects_encodeJ _ 0x5#4 tgt⟩
theorem ld (ra rb : Reg) : Statement (.ld ra rb) := 
  ⟨by simp [opcodeRows, Instr.row], selects_encodeRR _ 0x6#4 ra rb⟩
theorem st (ra rb : Reg) : Statement (.st ra rb) := 
  ⟨by simp [opcodeRows, Instr.row], selects_encodeRR _ 0x7#4 ra rb⟩

end Laws.Encoding
end Sys2Proof
end

