-- ==== Sys2Proof/Laws/State.lean ====
section
/-! SUPPORT. One lemma per field per update of the state, true by rfl; then the reads of one register, byte or flag after each update. -/

namespace Sys2Proof.Machine

/-! ### `State.writeReg` -/

@[simp] theorem State.writeReg_regs (s : State) (r : Reg) (v : Byte) : (s.writeReg r v).regs = s.regs.set r.val v := rfl
@[simp] theorem State.writeReg_pc (s : State) (r : Reg) (v : Byte) : (s.writeReg r v).pc = s.pc := rfl
@[simp] theorem State.writeReg_eq (s : State) (r : Reg) (v : Byte) : (s.writeReg r v).eq = s.eq := rfl
@[simp] theorem State.writeReg_mem (s : State) (r : Reg) (v : Byte) : (s.writeReg r v).mem = s.mem := rfl
@[simp] theorem State.writeReg_touched (s : State) (r : Reg) (v : Byte) : (s.writeReg r v).touched = s.touched := rfl
@[simp] theorem State.writeReg_instret (s : State) (r : Reg) (v : Byte) : (s.writeReg r v).instret = s.instret := rfl
@[simp] theorem State.writeReg_cycles (s : State) (r : Reg) (v : Byte) : (s.writeReg r v).cycles = s.cycles := rfl
@[simp] theorem State.writeReg_localHits (s : State) (r : Reg) (v : Byte) : (s.writeReg r v).localHits = s.localHits := rfl
@[simp] theorem State.writeReg_ldst (s : State) (r : Reg) (v : Byte) : (s.writeReg r v).ldst = s.ldst := rfl
@[simp] theorem State.writeReg_program (s : State) (r : Reg) (v : Byte) : (s.writeReg r v).program = s.program := rfl
@[simp] theorem State.writeReg_image (s : State) (r : Reg) (v : Byte) : (s.writeReg r v).image = s.image := rfl
@[simp] theorem State.writeReg_status (s : State) (r : Reg) (v : Byte) : (s.writeReg r v).status = s.status := rfl
@[simp] theorem State.writeReg_rejIndex (s : State) (r : Reg) (v : Byte) : (s.writeReg r v).rejIndex = s.rejIndex := rfl
@[simp] theorem State.writeReg_startPending (s : State) (r : Reg) (v : Byte) : (s.writeReg r v).startPending = s.startPending := rfl

/-! ### `State.memWrite` -/

@[simp] theorem State.memWrite_regs (s : State) (a : Nat) (v : Byte) : (s.memWrite a v).regs = s.regs := rfl
@[simp] theorem State.memWrite_pc (s : State) (a : Nat) (v : Byte) : (s.memWrite a v).pc = s.pc := rfl
@[simp] theorem State.memWrite_eq (s : State) (a : Nat) (v : Byte) : (s.memWrite a v).eq = s.eq := rfl
@[simp] theorem State.memWrite_mem (s : State) (a : Nat) (v : Byte) : (s.memWrite a v).mem = Memory.write s.mem a v := rfl
@[simp] theorem State.memWrite_touched (s : State) (a : Nat) (v : Byte) : (s.memWrite a v).touched = s.touched := rfl
@[simp] theorem State.memWrite_instret (s : State) (a : Nat) (v : Byte) : (s.memWrite a v).instret = s.instret := rfl
@[simp] theorem State.memWrite_cycles (s : State) (a : Nat) (v : Byte) : (s.memWrite a v).cycles = s.cycles := rfl
@[simp] theorem State.memWrite_localHits (s : State) (a : Nat) (v : Byte) : (s.memWrite a v).localHits = s.localHits := rfl
@[simp] theorem State.memWrite_ldst (s : State) (a : Nat) (v : Byte) : (s.memWrite a v).ldst = s.ldst := rfl
@[simp] theorem State.memWrite_program (s : State) (a : Nat) (v : Byte) : (s.memWrite a v).program = s.program := rfl
@[simp] theorem State.memWrite_image (s : State) (a : Nat) (v : Byte) : (s.memWrite a v).image = s.image := rfl
@[simp] theorem State.memWrite_status (s : State) (a : Nat) (v : Byte) : (s.memWrite a v).status = s.status := rfl
@[simp] theorem State.memWrite_rejIndex (s : State) (a : Nat) (v : Byte) : (s.memWrite a v).rejIndex = s.rejIndex := rfl
@[simp] theorem State.memWrite_startPending (s : State) (a : Nat) (v : Byte) : (s.memWrite a v).startPending = s.startPending := rfl

/-! ### `State.charge` -/

@[simp] theorem State.charge_regs (s : State) (n : Nat) : (s.charge n).regs = s.regs := rfl
@[simp] theorem State.charge_pc (s : State) (n : Nat) : (s.charge n).pc = s.pc := rfl
@[simp] theorem State.charge_eq (s : State) (n : Nat) : (s.charge n).eq = s.eq := rfl
@[simp] theorem State.charge_mem (s : State) (n : Nat) : (s.charge n).mem = s.mem := rfl
@[simp] theorem State.charge_touched (s : State) (n : Nat) : (s.charge n).touched = s.touched := rfl
@[simp] theorem State.charge_instret (s : State) (n : Nat) : (s.charge n).instret = s.instret := rfl
@[simp] theorem State.charge_cycles (s : State) (n : Nat) : (s.charge n).cycles = s.cycles + n := rfl
@[simp] theorem State.charge_localHits (s : State) (n : Nat) : (s.charge n).localHits = s.localHits := rfl
@[simp] theorem State.charge_ldst (s : State) (n : Nat) : (s.charge n).ldst = s.ldst := rfl
@[simp] theorem State.charge_program (s : State) (n : Nat) : (s.charge n).program = s.program := rfl
@[simp] theorem State.charge_image (s : State) (n : Nat) : (s.charge n).image = s.image := rfl
@[simp] theorem State.charge_status (s : State) (n : Nat) : (s.charge n).status = s.status := rfl
@[simp] theorem State.charge_rejIndex (s : State) (n : Nat) : (s.charge n).rejIndex = s.rejIndex := rfl
@[simp] theorem State.charge_startPending (s : State) (n : Nat) : (s.charge n).startPending = s.startPending := rfl

/-! ### `State.advance` -/

@[simp] theorem State.advance_regs (s : State) : (s.advance).regs = s.regs := rfl
@[simp] theorem State.advance_pc (s : State) : (s.advance).pc = s.pc + 1#16 := rfl
@[simp] theorem State.advance_eq (s : State) : (s.advance).eq = s.eq := rfl
@[simp] theorem State.advance_mem (s : State) : (s.advance).mem = s.mem := rfl
@[simp] theorem State.advance_touched (s : State) : (s.advance).touched = s.touched := rfl
@[simp] theorem State.advance_instret (s : State) : (s.advance).instret = s.instret := rfl
@[simp] theorem State.advance_cycles (s : State) : (s.advance).cycles = s.cycles := rfl
@[simp] theorem State.advance_localHits (s : State) : (s.advance).localHits = s.localHits := rfl
@[simp] theorem State.advance_ldst (s : State) : (s.advance).ldst = s.ldst := rfl
@[simp] theorem State.advance_program (s : State) : (s.advance).program = s.program := rfl
@[simp] theorem State.advance_image (s : State) : (s.advance).image = s.image := rfl
@[simp] theorem State.advance_status (s : State) : (s.advance).status = s.status := rfl
@[simp] theorem State.advance_rejIndex (s : State) : (s.advance).rejIndex = s.rejIndex := rfl
@[simp] theorem State.advance_startPending (s : State) : (s.advance).startPending = s.startPending := rfl

/-! ### `State.jump` -/

@[simp] theorem State.jump_regs (s : State) (t : Index) : (s.jump t).regs = s.regs := rfl
@[simp] theorem State.jump_pc (s : State) (t : Index) : (s.jump t).pc = t := rfl
@[simp] theorem State.jump_eq (s : State) (t : Index) : (s.jump t).eq = s.eq := rfl
@[simp] theorem State.jump_mem (s : State) (t : Index) : (s.jump t).mem = s.mem := rfl
@[simp] theorem State.jump_touched (s : State) (t : Index) : (s.jump t).touched = s.touched := rfl
@[simp] theorem State.jump_instret (s : State) (t : Index) : (s.jump t).instret = s.instret := rfl
@[simp] theorem State.jump_cycles (s : State) (t : Index) : (s.jump t).cycles = s.cycles := rfl
@[simp] theorem State.jump_localHits (s : State) (t : Index) : (s.jump t).localHits = s.localHits := rfl
@[simp] theorem State.jump_ldst (s : State) (t : Index) : (s.jump t).ldst = s.ldst := rfl
@[simp] theorem State.jump_program (s : State) (t : Index) : (s.jump t).program = s.program := rfl
@[simp] theorem State.jump_image (s : State) (t : Index) : (s.jump t).image = s.image := rfl
@[simp] theorem State.jump_status (s : State) (t : Index) : (s.jump t).status = s.status := rfl
@[simp] theorem State.jump_rejIndex (s : State) (t : Index) : (s.jump t).rejIndex = s.rejIndex := rfl
@[simp] theorem State.jump_startPending (s : State) (t : Index) : (s.jump t).startPending = s.startPending := rfl

/-! ### `State.setEq` -/

@[simp] theorem State.setEq_regs (s : State) (b : Bool) : (s.setEq b).regs = s.regs := rfl
@[simp] theorem State.setEq_pc (s : State) (b : Bool) : (s.setEq b).pc = s.pc := rfl
@[simp] theorem State.setEq_eq (s : State) (b : Bool) : (s.setEq b).eq = b := rfl
@[simp] theorem State.setEq_mem (s : State) (b : Bool) : (s.setEq b).mem = s.mem := rfl
@[simp] theorem State.setEq_touched (s : State) (b : Bool) : (s.setEq b).touched = s.touched := rfl
@[simp] theorem State.setEq_instret (s : State) (b : Bool) : (s.setEq b).instret = s.instret := rfl
@[simp] theorem State.setEq_cycles (s : State) (b : Bool) : (s.setEq b).cycles = s.cycles := rfl
@[simp] theorem State.setEq_localHits (s : State) (b : Bool) : (s.setEq b).localHits = s.localHits := rfl
@[simp] theorem State.setEq_ldst (s : State) (b : Bool) : (s.setEq b).ldst = s.ldst := rfl
@[simp] theorem State.setEq_program (s : State) (b : Bool) : (s.setEq b).program = s.program := rfl
@[simp] theorem State.setEq_image (s : State) (b : Bool) : (s.setEq b).image = s.image := rfl
@[simp] theorem State.setEq_status (s : State) (b : Bool) : (s.setEq b).status = s.status := rfl
@[simp] theorem State.setEq_rejIndex (s : State) (b : Bool) : (s.setEq b).rejIndex = s.rejIndex := rfl
@[simp] theorem State.setEq_startPending (s : State) (b : Bool) : (s.setEq b).startPending = s.startPending := rfl

/-! ### `State.countFetch` -/

@[simp] theorem State.countFetch_regs (s : State) : (s.countFetch).regs = s.regs := rfl
@[simp] theorem State.countFetch_pc (s : State) : (s.countFetch).pc = s.pc := rfl
@[simp] theorem State.countFetch_eq (s : State) : (s.countFetch).eq = s.eq := rfl
@[simp] theorem State.countFetch_mem (s : State) : (s.countFetch).mem = s.mem := rfl
@[simp] theorem State.countFetch_touched (s : State) : (s.countFetch).touched = s.touched := rfl
@[simp] theorem State.countFetch_instret (s : State) : (s.countFetch).instret = s.instret + 1 := rfl
@[simp] theorem State.countFetch_cycles (s : State) : (s.countFetch).cycles = s.cycles := rfl
@[simp] theorem State.countFetch_localHits (s : State) : (s.countFetch).localHits = s.localHits := rfl
@[simp] theorem State.countFetch_ldst (s : State) : (s.countFetch).ldst = s.ldst := rfl
@[simp] theorem State.countFetch_program (s : State) : (s.countFetch).program = s.program := rfl
@[simp] theorem State.countFetch_image (s : State) : (s.countFetch).image = s.image := rfl
@[simp] theorem State.countFetch_status (s : State) : (s.countFetch).status = s.status := rfl
@[simp] theorem State.countFetch_rejIndex (s : State) : (s.countFetch).rejIndex = s.rejIndex := rfl
@[simp] theorem State.countFetch_startPending (s : State) : (s.countFetch).startPending = s.startPending := rfl

/-! ### `State.halt` -/

@[simp] theorem State.halt_regs (s : State) : (s.halt).regs = s.regs := rfl
@[simp] theorem State.halt_pc (s : State) : (s.halt).pc = s.pc := rfl
@[simp] theorem State.halt_eq (s : State) : (s.halt).eq = s.eq := rfl
@[simp] theorem State.halt_mem (s : State) : (s.halt).mem = s.mem := rfl
@[simp] theorem State.halt_touched (s : State) : (s.halt).touched = s.touched := rfl
@[simp] theorem State.halt_instret (s : State) : (s.halt).instret = s.instret := rfl
@[simp] theorem State.halt_cycles (s : State) : (s.halt).cycles = s.cycles := rfl
@[simp] theorem State.halt_localHits (s : State) : (s.halt).localHits = s.localHits := rfl
@[simp] theorem State.halt_ldst (s : State) : (s.halt).ldst = s.ldst := rfl
@[simp] theorem State.halt_program (s : State) : (s.halt).program = s.program := rfl
@[simp] theorem State.halt_image (s : State) : (s.halt).image = s.image := rfl
@[simp] theorem State.halt_status (s : State) : (s.halt).status = .halted := rfl
@[simp] theorem State.halt_rejIndex (s : State) : (s.halt).rejIndex = s.rejIndex := rfl
@[simp] theorem State.halt_startPending (s : State) : (s.halt).startPending = s.startPending := rfl

/-! ### `State.takeStart` -/

@[simp] theorem State.takeStart_regs (s : State) : (s.takeStart).regs = s.regs := rfl
@[simp] theorem State.takeStart_pc (s : State) : (s.takeStart).pc = s.pc := rfl
@[simp] theorem State.takeStart_eq (s : State) : (s.takeStart).eq = s.eq := rfl
@[simp] theorem State.takeStart_mem (s : State) : (s.takeStart).mem = s.mem := rfl
@[simp] theorem State.takeStart_touched (s : State) : (s.takeStart).touched = s.touched := rfl
@[simp] theorem State.takeStart_instret (s : State) : (s.takeStart).instret = s.instret := rfl
@[simp] theorem State.takeStart_cycles (s : State) : (s.takeStart).cycles = s.cycles := rfl
@[simp] theorem State.takeStart_localHits (s : State) : (s.takeStart).localHits = s.localHits := rfl
@[simp] theorem State.takeStart_ldst (s : State) : (s.takeStart).ldst = s.ldst := rfl
@[simp] theorem State.takeStart_program (s : State) : (s.takeStart).program = s.program := rfl
@[simp] theorem State.takeStart_image (s : State) : (s.takeStart).image = s.image := rfl
@[simp] theorem State.takeStart_status (s : State) : (s.takeStart).status = s.status := rfl
@[simp] theorem State.takeStart_rejIndex (s : State) : (s.takeStart).rejIndex = s.rejIndex := rfl
@[simp] theorem State.takeStart_startPending (s : State) : (s.takeStart).startPending = false := rfl

/-! ### `State.raiseMalformed` -/

@[simp] theorem State.raiseMalformed_regs (s : State) (i : Nat) : (s.raiseMalformed i).regs = s.regs := rfl
@[simp] theorem State.raiseMalformed_pc (s : State) (i : Nat) : (s.raiseMalformed i).pc = s.pc := rfl
@[simp] theorem State.raiseMalformed_eq (s : State) (i : Nat) : (s.raiseMalformed i).eq = s.eq := rfl
@[simp] theorem State.raiseMalformed_mem (s : State) (i : Nat) : (s.raiseMalformed i).mem = s.mem := rfl
@[simp] theorem State.raiseMalformed_touched (s : State) (i : Nat) : (s.raiseMalformed i).touched = s.touched := rfl
@[simp] theorem State.raiseMalformed_instret (s : State) (i : Nat) : (s.raiseMalformed i).instret = s.instret := rfl
@[simp] theorem State.raiseMalformed_cycles (s : State) (i : Nat) : (s.raiseMalformed i).cycles = s.cycles := rfl
@[simp] theorem State.raiseMalformed_localHits (s : State) (i : Nat) : (s.raiseMalformed i).localHits = s.localHits := rfl
@[simp] theorem State.raiseMalformed_ldst (s : State) (i : Nat) : (s.raiseMalformed i).ldst = s.ldst := rfl
@[simp] theorem State.raiseMalformed_program (s : State) (i : Nat) : (s.raiseMalformed i).program = s.program := rfl
@[simp] theorem State.raiseMalformed_image (s : State) (i : Nat) : (s.raiseMalformed i).image = s.image := rfl
@[simp] theorem State.raiseMalformed_status (s : State) (i : Nat) : (s.raiseMalformed i).status = .rejected := rfl
@[simp] theorem State.raiseMalformed_rejIndex (s : State) (i : Nat) : (s.raiseMalformed i).rejIndex = i := rfl
@[simp] theorem State.raiseMalformed_startPending (s : State) (i : Nat) : (s.raiseMalformed i).startPending = s.startPending := rfl

/-! ### `State.placeWord` -/

@[simp] theorem State.placeWord_regs (s : State) (w : IWord) : (s.placeWord w).regs = s.regs := rfl
@[simp] theorem State.placeWord_pc (s : State) (w : IWord) : (s.placeWord w).pc = s.pc := rfl
@[simp] theorem State.placeWord_eq (s : State) (w : IWord) : (s.placeWord w).eq = s.eq := rfl
@[simp] theorem State.placeWord_mem (s : State) (w : IWord) : (s.placeWord w).mem = s.mem := rfl
@[simp] theorem State.placeWord_touched (s : State) (w : IWord) : (s.placeWord w).touched = s.touched := rfl
@[simp] theorem State.placeWord_instret (s : State) (w : IWord) : (s.placeWord w).instret = s.instret := rfl
@[simp] theorem State.placeWord_cycles (s : State) (w : IWord) : (s.placeWord w).cycles = s.cycles := rfl
@[simp] theorem State.placeWord_localHits (s : State) (w : IWord) : (s.placeWord w).localHits = s.localHits := rfl
@[simp] theorem State.placeWord_ldst (s : State) (w : IWord) : (s.placeWord w).ldst = s.ldst := rfl
@[simp] theorem State.placeWord_program (s : State) (w : IWord) :
    (s.placeWord w).program = .resolved ⟨Image.place s.image s.pc.toNat w⟩ := rfl
@[simp] theorem State.placeWord_image (s : State) (w : IWord) : (s.placeWord w).image = Image.place s.image s.pc.toNat w := rfl
@[simp] theorem State.placeWord_status (s : State) (w : IWord) : (s.placeWord w).status = .running := rfl
@[simp] theorem State.placeWord_rejIndex (s : State) (w : IWord) : (s.placeWord w).rejIndex = s.rejIndex := rfl
@[simp] theorem State.placeWord_startPending (s : State) (w : IWord) : (s.placeWord w).startPending = s.startPending := rfl

/-! ### `State.touch` (R54) -/

@[simp] theorem State.touch_regs (s : State) (a : Nat) : (s.touch a).regs = s.regs := by
  unfold State.touch; split <;> rfl
@[simp] theorem State.touch_pc (s : State) (a : Nat) : (s.touch a).pc = s.pc := by
  unfold State.touch; split <;> rfl
@[simp] theorem State.touch_eq (s : State) (a : Nat) : (s.touch a).eq = s.eq := by
  unfold State.touch; split <;> rfl
@[simp] theorem State.touch_mem (s : State) (a : Nat) : (s.touch a).mem = s.mem := by
  unfold State.touch; split <;> rfl
@[simp] theorem State.touch_touched (s : State) (a : Nat) : (s.touch a).touched = if s.isTouched a then s.touched else Touched.set s.touched a := by
  unfold State.touch; split <;> simp_all
@[simp] theorem State.touch_instret (s : State) (a : Nat) : (s.touch a).instret = s.instret := by
  unfold State.touch; split <;> rfl
@[simp] theorem State.touch_cycles (s : State) (a : Nat) : (s.touch a).cycles = s.cycles + (if s.isTouched a then Config.costWarm else Config.costCold) := by
  unfold State.touch; split <;> simp_all
@[simp] theorem State.touch_localHits (s : State) (a : Nat) : (s.touch a).localHits = s.localHits + (if s.isTouched a then 1 else 0) := by
  unfold State.touch; split <;> simp_all
@[simp] theorem State.touch_ldst (s : State) (a : Nat) : (s.touch a).ldst = s.ldst + 1 := by
  unfold State.touch; split <;> rfl
@[simp] theorem State.touch_program (s : State) (a : Nat) : (s.touch a).program = s.program := by
  unfold State.touch; split <;> rfl
@[simp] theorem State.touch_image (s : State) (a : Nat) : (s.touch a).image = s.image := by
  simp [State.image]
@[simp] theorem State.touch_status (s : State) (a : Nat) : (s.touch a).status = s.status := by
  unfold State.touch; split <;> rfl
@[simp] theorem State.touch_rejIndex (s : State) (a : Nat) : (s.touch a).rejIndex = s.rejIndex := by
  unfold State.touch; split <;> rfl
@[simp] theorem State.touch_startPending (s : State) (a : Nat) : (s.touch a).startPending = s.startPending := by
  unfold State.touch; split <;> rfl

/-! ### Reading one register (R9, R23) -/

theorem State.readReg_writeReg (s : State) (r q : Reg) (v : Byte) :
    (s.writeReg r v).readReg q = if r = q then v else s.readReg q := by
  simp only [State.readReg, State.writeReg, Vector.getElem_set, Fin.ext_iff]

@[simp] theorem State.readReg_writeReg_same (s : State) (r : Reg) (v : Byte) : (s.writeReg r v).readReg r = v := by
  simp [State.readReg_writeReg]

theorem State.readReg_writeReg_other (s : State) (r q : Reg) (v : Byte) (h : q ≠ r) :
    (s.writeReg r v).readReg q = s.readReg q := by
  simp [State.readReg_writeReg, h.symm]

/-- A register reads as it does in a state with the same register file. -/
theorem State.readReg_congr (s t : State) (h : t.regs = s.regs) (q : Reg) : t.readReg q = s.readReg q := by
  simp only [State.readReg, h]

/-- A byte reads as it does in a state with the same memory. -/
theorem State.memRead_congr (s t : State) (h : t.mem = s.mem) (a : Nat) : t.memRead a = s.memRead a := by
  simp only [State.memRead, h]

/-- A flag reads as it does in a state with the same `touched` list. -/
theorem State.isTouched_congr (s t : State) (h : t.touched = s.touched) (a : Nat) : t.isTouched a = s.isTouched a := by
  simp only [State.isTouched, h]

@[simp] theorem State.memRead_writeReg (s : State) (r : Reg) (v : Byte) (c : Nat) : (s.writeReg r v).memRead c = s.memRead c := rfl
@[simp] theorem State.isTouched_writeReg (s : State) (r : Reg) (v : Byte) (c : Nat) : (s.writeReg r v).isTouched c = s.isTouched c := rfl
@[simp] theorem State.readReg_memWrite (s : State) (a : Nat) (v : Byte) (q : Reg) : (s.memWrite a v).readReg q = s.readReg q := rfl
@[simp] theorem State.isTouched_memWrite (s : State) (a : Nat) (v : Byte) (c : Nat) : (s.memWrite a v).isTouched c = s.isTouched c := rfl
@[simp] theorem State.readReg_charge (s : State) (n : Nat) (q : Reg) : (s.charge n).readReg q = s.readReg q := rfl
@[simp] theorem State.memRead_charge (s : State) (n : Nat) (c : Nat) : (s.charge n).memRead c = s.memRead c := rfl
@[simp] theorem State.isTouched_charge (s : State) (n : Nat) (c : Nat) : (s.charge n).isTouched c = s.isTouched c := rfl
@[simp] theorem State.readReg_advance (s : State) (q : Reg) : (s.advance).readReg q = s.readReg q := rfl
@[simp] theorem State.memRead_advance (s : State) (c : Nat) : (s.advance).memRead c = s.memRead c := rfl
@[simp] theorem State.isTouched_advance (s : State) (c : Nat) : (s.advance).isTouched c = s.isTouched c := rfl
@[simp] theorem State.readReg_jump (s : State) (t : Index) (q : Reg) : (s.jump t).readReg q = s.readReg q := rfl
@[simp] theorem State.memRead_jump (s : State) (t : Index) (c : Nat) : (s.jump t).memRead c = s.memRead c := rfl
@[simp] theorem State.isTouched_jump (s : State) (t : Index) (c : Nat) : (s.jump t).isTouched c = s.isTouched c := rfl
@[simp] theorem State.readReg_setEq (s : State) (b : Bool) (q : Reg) : (s.setEq b).readReg q = s.readReg q := rfl
@[simp] theorem State.memRead_setEq (s : State) (b : Bool) (c : Nat) : (s.setEq b).memRead c = s.memRead c := rfl
@[simp] theorem State.isTouched_setEq (s : State) (b : Bool) (c : Nat) : (s.setEq b).isTouched c = s.isTouched c := rfl
@[simp] theorem State.readReg_countFetch (s : State) (q : Reg) : (s.countFetch).readReg q = s.readReg q := rfl
@[simp] theorem State.memRead_countFetch (s : State) (c : Nat) : (s.countFetch).memRead c = s.memRead c := rfl
@[simp] theorem State.isTouched_countFetch (s : State) (c : Nat) : (s.countFetch).isTouched c = s.isTouched c := rfl
@[simp] theorem State.readReg_halt (s : State) (q : Reg) : (s.halt).readReg q = s.readReg q := rfl
@[simp] theorem State.memRead_halt (s : State) (c : Nat) : (s.halt).memRead c = s.memRead c := rfl
@[simp] theorem State.isTouched_halt (s : State) (c : Nat) : (s.halt).isTouched c = s.isTouched c := rfl
@[simp] theorem State.readReg_takeStart (s : State) (q : Reg) : (s.takeStart).readReg q = s.readReg q := rfl
@[simp] theorem State.memRead_takeStart (s : State) (c : Nat) : (s.takeStart).memRead c = s.memRead c := rfl
@[simp] theorem State.isTouched_takeStart (s : State) (c : Nat) : (s.takeStart).isTouched c = s.isTouched c := rfl
@[simp] theorem State.readReg_raiseMalformed (s : State) (i : Nat) (q : Reg) : (s.raiseMalformed i).readReg q = s.readReg q := rfl
@[simp] theorem State.memRead_raiseMalformed (s : State) (i : Nat) (c : Nat) : (s.raiseMalformed i).memRead c = s.memRead c := rfl
@[simp] theorem State.isTouched_raiseMalformed (s : State) (i : Nat) (c : Nat) : (s.raiseMalformed i).isTouched c = s.isTouched c := rfl
@[simp] theorem State.readReg_placeWord (s : State) (w : IWord) (q : Reg) : (s.placeWord w).readReg q = s.readReg q := rfl
@[simp] theorem State.memRead_placeWord (s : State) (w : IWord) (c : Nat) : (s.placeWord w).memRead c = s.memRead c := rfl
@[simp] theorem State.isTouched_placeWord (s : State) (w : IWord) (c : Nat) : (s.placeWord w).isTouched c = s.isTouched c := rfl

@[simp] theorem State.readReg_touch (s : State) (a : Nat) (q : Reg) : (s.touch a).readReg q = s.readReg q :=
  State.readReg_congr _ _ (State.touch_regs s a) q
@[simp] theorem State.memRead_touch (s : State) (a c : Nat) : (s.touch a).memRead c = s.memRead c :=
  State.memRead_congr _ _ (State.touch_mem s a) c

end Sys2Proof.Machine
end

