-- ==== Sys2Proof/Laws/Storage.lean ====
section
/-! SUPPORT. Data memory and the `touched` flags: reads after writes, and that every operation keeps the canonical form (R41, R42, R54, R203). -/

namespace Sys2Proof.Machine

/-! ### The canonical form of memory -/

theorem Memory.wfFrom_mono {lo hi : Nat} (h : lo ≤ hi) {m : List Host.Cell} (w : Memory.wfFrom hi m = true) :
    Memory.wfFrom lo m = true := by
  cases m with
  | nil => rfl
  | cons c rest =>
    simp only [Memory.wfFrom, Bool.and_eq_true, decide_eq_true_eq] at w ⊢
    exact ⟨⟨⟨h.trans w.1.1.1, w.1.1.2⟩, w.1.2⟩, w.2⟩

/-- Below the canonical form's first address nothing is listed. -/
theorem Memory.read_below {lo a : Nat} {m : List Host.Cell} (w : Memory.wfFrom lo m = true) (h : a < lo) :
    Memory.read m a = Config.memInit := by
  induction m generalizing lo with
  | nil => rfl
  | cons c rest ih =>
    obtain ⟨b, u⟩ := c
    simp only [Memory.wfFrom, Bool.and_eq_true, decide_eq_true_eq] at w
    have hb : b ≠ a := by omega
    simp only [Memory.read, if_neg hb]
    exact ih w.2 (by omega)

/-- A write of a byte of the data space keeps the canonical form. -/
theorem Memory.write_wfFrom {lo a : Nat} {m : List Host.Cell} (v : Byte) (w : Memory.wfFrom lo m = true) (hlo : lo ≤ a)
    (ha : a < Config.memSize) : Memory.wfFrom lo (Memory.write m a v) = true := by
  induction m generalizing lo with
  | nil =>
    by_cases hv : v = Config.memInit <;> simp [Memory.write, Memory.wfFrom, hv, hlo, ha]
  | cons c rest ih =>
    obtain ⟨b, u⟩ := c
    simp only [Memory.wfFrom, Bool.and_eq_true, decide_eq_true_eq] at w
    obtain ⟨⟨⟨h1, h2⟩, h3⟩, h4⟩ := w
    unfold Memory.write
    by_cases hab : a < b
    · by_cases hv : v = Config.memInit
      · simp [hab, hv, Memory.wfFrom, h1, h2, h3, h4]
      · have : a + 1 ≤ b := hab
        simp [hab, hv, Memory.wfFrom, hlo, ha, h2, h3, h4, this]
    · by_cases he : a = b
      · subst he
        by_cases hv : v = Config.memInit
        · simp only [hab, hv, if_false, if_true]
          exact Memory.wfFrom_mono (by omega) h4
        · simp [hv, Memory.wfFrom, h1, h2, h4]
      · have hr := ih h4 (by omega)
        simp [hab, he, Memory.wfFrom, h1, h2, h3, hr]

/-- Every write keeps `Memory.wf`. -/
theorem Memory.write_wf {m : List Host.Cell} {a : Nat} (v : Byte) (w : Memory.wf m = true) (ha : a < Config.memSize) :
    Memory.wf (Memory.write m a v) = true :=
  Memory.write_wfFrom v w (Nat.zero_le a) ha

theorem Memory.read_write_same_from {lo a : Nat} {m : List Host.Cell} (v : Byte) (w : Memory.wfFrom lo m = true) :
    Memory.read (Memory.write m a v) a = v := by
  induction m generalizing lo with
  | nil =>
    unfold Memory.write
    split
    · simp [Memory.read, *]
    · simp [Memory.read]
  | cons c rest ih =>
    obtain ⟨b, u⟩ := c
    have w' := w
    simp only [Memory.wfFrom, Bool.and_eq_true, decide_eq_true_eq] at w
    unfold Memory.write
    by_cases hab : a < b
    · by_cases hv : v = Config.memInit
      · have hr := Memory.read_below w.2 (show a < b + 1 by omega)
        have hba : b ≠ a := by omega
        simp [hab, hv, Memory.read, hba, hr]
      · simp [hab, hv, Memory.read]
    · by_cases he : a = b
      · subst he
        by_cases hv : v = Config.memInit
        · simp [hv, Memory.read_below w.2 (Nat.lt_succ_self a)]
        · simp [hv, Memory.read]
      · have hba : b ≠ a := fun h => he h.symm
        simp [hab, he, Memory.read, hba, ih w.2]

/-- A byte written is the byte read back (R203). -/
theorem Memory.read_write_same {m : List Host.Cell} {a : Nat} (v : Byte) (w : Memory.wf m = true) :
    Memory.read (Memory.write m a v) a = v :=
  Memory.read_write_same_from v w

/-- A write changes no other byte (R203). -/
theorem Memory.read_write_other {m : List Host.Cell} {a c : Nat} (v : Byte) (h : c ≠ a) :
    Memory.read (Memory.write m a v) c = Memory.read m c := by
  have hac : a ≠ c := h.symm
  induction m with
  | nil =>
    unfold Memory.write
    split <;> simp [Memory.read, hac]
  | cons d rest ih =>
    obtain ⟨b, u⟩ := d
    unfold Memory.write
    by_cases hab : a < b
    · by_cases hv : v = Config.memInit <;> simp [hab, hv, Memory.read, hac]
    · by_cases he : a = b
      · subst he
        by_cases hv : v = Config.memInit <;> simp [hv, Memory.read, hac]
      · simp [hab, he, Memory.read, ih]

/-- Two canonical memories that read alike everywhere are the same list. -/
theorem Memory.ext_from {lo : Nat} {m n : List Host.Cell} (hm : Memory.wfFrom lo m = true) (hn : Memory.wfFrom lo n = true)
    (h : ∀ a, Memory.read m a = Memory.read n a) : m = n := by
  induction m generalizing n lo with
  | nil =>
    cases n with
    | nil => rfl
    | cons d rest =>
      obtain ⟨b, u⟩ := d
      simp only [Memory.wfFrom, Bool.and_eq_true, decide_eq_true_eq] at hn
      have := h b
      simp [Memory.read] at this
      exact absurd this.symm hn.1.2
  | cons c rest ih =>
    obtain ⟨b, u⟩ := c
    have hm' := hm
    simp only [Memory.wfFrom, Bool.and_eq_true, decide_eq_true_eq] at hm
    cases n with
    | nil =>
      have := h b
      simp [Memory.read] at this
      exact absurd this hm.1.2
    | cons d rest' =>
      obtain ⟨b', u'⟩ := d
      have hn' := hn
      simp only [Memory.wfFrom, Bool.and_eq_true, decide_eq_true_eq] at hn
      have hbb : b = b' := by
        rcases Nat.lt_trichotomy b b' with hlt | heq | hgt
        · have h1 := h b
          have h2 := Memory.read_below hn.2 (show b < b' + 1 by omega)
          have h3 : b' ≠ b := by omega
          simp only [Memory.read, if_true, if_neg h3, h2] at h1
          exact absurd h1 hm.1.2
        · exact heq
        · have h1 := h b'
          have h2 := Memory.read_below hm.2 (show b' < b + 1 by omega)
          have h3 : b ≠ b' := by omega
          simp only [Memory.read, if_true, if_neg h3, h2] at h1
          exact absurd h1.symm hn.1.2
      subst hbb
      have huu : u = u' := by simpa [Memory.read] using h b
      subst huu
      congr 1
      refine ih hm.2 hn.2 fun a => ?_
      by_cases hab : b = a
      · subst hab
        rw [Memory.read_below hm.2 (Nat.lt_succ_self b), Memory.read_below hn.2 (Nat.lt_succ_self b)]
      · simpa [Memory.read, hab] using h a

/-- Equal reads, equal data: the form is canonical. -/
theorem Memory.ext {m n : List Host.Cell} (hm : Memory.wf m = true) (hn : Memory.wf n = true)
    (h : ∀ a, Memory.read m a = Memory.read n a) : m = n :=
  Memory.ext_from hm hn h

/-! ### The canonical form of the flags -/

theorem Touched.wfFrom_mono {lo hi : Nat} (h : lo ≤ hi) {t : List Nat} (w : Touched.wfFrom hi t = true) :
    Touched.wfFrom lo t = true := by
  cases t with
  | nil => rfl
  | cons b rest =>
    simp only [Touched.wfFrom, Bool.and_eq_true, decide_eq_true_eq] at w ⊢
    exact ⟨⟨h.trans w.1.1, w.1.2⟩, w.2⟩

theorem Touched.flag_below {lo a : Nat} {t : List Nat} (w : Touched.wfFrom lo t = true) (h : a < lo) :
    Touched.flag t a = false := by
  induction t generalizing lo with
  | nil => rfl
  | cons b rest ih =>
    simp only [Touched.wfFrom, Bool.and_eq_true, decide_eq_true_eq] at w
    have hb : b ≠ a := by omega
    simp only [Touched.flag, if_neg hb]
    exact ih w.2 (by omega)

theorem Touched.set_wfFrom {lo a : Nat} {t : List Nat} (w : Touched.wfFrom lo t = true) (hlo : lo ≤ a)
    (ha : a < Config.memSize) : Touched.wfFrom lo (Touched.set t a) = true := by
  induction t generalizing lo with
  | nil => simp [Touched.set, Touched.wfFrom, hlo, ha]
  | cons b rest ih =>
    simp only [Touched.wfFrom, Bool.and_eq_true, decide_eq_true_eq] at w
    obtain ⟨⟨h1, h2⟩, h3⟩ := w
    unfold Touched.set
    by_cases hab : a < b
    · have : a + 1 ≤ b := hab
      simp [hab, Touched.wfFrom, hlo, ha, h2, h3, this]
    · by_cases he : a = b
      · simp [he, Touched.wfFrom, h1, h2, h3]
      · have hr := ih h3 (by omega)
        simp [hab, he, Touched.wfFrom, h1, h2, hr]

/-- Setting a flag of the data space keeps `Touched.wf`. -/
theorem Touched.set_wf {t : List Nat} {a : Nat} (w : Touched.wf t = true) (ha : a < Config.memSize) :
    Touched.wf (Touched.set t a) = true :=
  Touched.set_wfFrom w (Nat.zero_le a) ha

/-- Setting a flag sets it and no other (R54, R56). -/
theorem Touched.flag_set (t : List Nat) (a c : Nat) :
    Touched.flag (Touched.set t a) c = (decide (c = a) || Touched.flag t c) := by
  induction t with
  | nil =>
    by_cases h : a = c
    · simp [Touched.set, Touched.flag, h]
    · have : c ≠ a := fun e => h e.symm
      simp [Touched.set, Touched.flag, h, this]
  | cons b rest ih =>
    unfold Touched.set
    by_cases hab : a < b
    · rw [if_pos hab]
      by_cases h : a = c
      · simp [Touched.flag, h]
      · have : c ≠ a := fun e => h e.symm
        simp [Touched.flag, h, this]
    · by_cases he : a = b
      · subst he
        by_cases h : a = c
        · simp [Touched.flag, h]
        · have : c ≠ a := fun e => h e.symm
          simp [Touched.flag, h, this]
      · simp only [hab, he, if_false, Touched.flag, ih]
        by_cases h : b = c <;> simp [h]

/-- Setting a flag that was clear makes the list one longer (R39). -/
theorem Touched.length_set {t : List Nat} {a : Nat} (h : Touched.flag t a = false) :
    (Touched.set t a).length = t.length + 1 := by
  induction t with
  | nil => rfl
  | cons b rest ih =>
    unfold Touched.flag at h
    by_cases hb : b = a
    · simp [hb] at h
    · have hb' : a ≠ b := fun e => hb e.symm
      simp only [hb, if_false] at h
      unfold Touched.set
      by_cases hab : a < b
      · simp [hab]
      · simp [hab, hb', ih h]

theorem Touched.length_le_from {lo : Nat} {t : List Nat} (w : Touched.wfFrom lo t = true) (hlo : lo ≤ Config.memSize) :
    t.length + lo ≤ Config.memSize := by
  induction t generalizing lo with
  | nil => simpa using hlo
  | cons b rest ih =>
    simp only [Touched.wfFrom, Bool.and_eq_true, decide_eq_true_eq] at w
    have := ih w.2 (by omega)
    simp only [List.length_cons]
    omega

/-! ### The operations on the state -/

/-- The effective address is in the data space (R52). -/
theorem State.effAddr_lt (s : State) (r : Reg) : s.effAddr r < Config.memSize := (s.readReg r).isLt

/-- Reading the stored byte back (R203). -/
theorem State.memRead_memWrite_same (s : State) (a : Nat) (v : Byte) (w : Memory.wf s.mem = true) :
    (s.memWrite a v).memRead a = v :=
  Memory.read_write_same v w

/-- A store leaves every other byte (R203). -/
theorem State.memRead_memWrite_other (s : State) (a c : Nat) (v : Byte) (h : c ≠ a) :
    (s.memWrite a v).memRead c = s.memRead c :=
  Memory.read_write_other v h

/-- `Touch(a)` sets the flag of `a` and no other (R54, R56). -/
theorem State.isTouched_touch (s : State) (a c : Nat) :
    (s.touch a).isTouched c = (decide (c = a) || s.isTouched c) := by
  unfold State.touch
  split
  · by_cases h : c = a <;> simp_all [State.isTouched]
  · simp [State.isTouched, Touched.flag_set]

/-- `Touch(a)` keeps both canonical forms. -/
theorem State.touch_storage (s : State) (a : Nat) (ha : a < Config.memSize) (hm : Memory.wf s.mem = true)
    (ht : Touched.wf s.touched = true) :
    Memory.wf (s.touch a).mem = true ∧ Touched.wf (s.touch a).touched = true := by
  refine ⟨by simpa using hm, ?_⟩
  simp only [State.touch_touched]
  split
  · exact ht
  · exact Touched.set_wf ht ha

/-- `MemWrite` keeps both canonical forms. -/
theorem State.memWrite_storage (s : State) (a : Nat) (v : Byte) (ha : a < Config.memSize) (hm : Memory.wf s.mem = true)
    (ht : Touched.wf s.touched = true) :
    Memory.wf (s.memWrite a v).mem = true ∧ Touched.wf (s.memWrite a v).touched = true :=
  ⟨Memory.write_wf v hm ha, ht⟩

/-- The memory and the flags of the reset state are in canonical form. -/
theorem reset_storage : Memory.wf State.reset.mem = true ∧ Touched.wf State.reset.touched = true := by decide

end Sys2Proof.Machine
end

