-- ==== Sys2Proof/Laws/Step.lean ====
section
/-! SUPPORT. What a step can do, said once (R40, R131), and what an instruction's own part of it leaves to the loop (R133). -/

namespace Sys2Proof.Machine

/-- The word at `pc`, when the loop test holds (R131). -/
theorem fetchWord_eq (p : ResolvedProgram) (pc : Index) : fetchWord p pc = (p.entries[pc.toNat]?).map (·.word) := by
  unfold fetchWord pcInRange
  by_cases h : pc.toNat < p.entries.length <;> simp [h]

/-! ### The two forms of the instruction store (R191) -/

theorem image_of_resolved {s : State} {p : ResolvedProgram} (h : s.program = .resolved p) : s.image = p.entries := by
  rw [State.image, h]
  rfl

theorem image_of_unresolved {s : State} {p : UnresolvedProgram} (h : s.program = .unresolved p) : s.image = p.entries := by
  rw [State.image, h]
  rfl

theorem isResolved_eq_true (q : Program) : Program.isResolved q = true ↔ ∃ p, q = .resolved p := by
  cases q <;> simp [Program.isResolved]

theorem isResolved_eq_false (q : Program) : Program.isResolved q = false ↔ ∃ p, q = .unresolved p := by
  cases q <;> simp [Program.isResolved]

/-! ### One step, phase by phase -/

theorem step_idle_waiting {s : State} (h : s.status = .idle) (hp : s.startPending = false) : step s = .next s := by
  simp [step, h, idleStep, hp]

theorem step_idle_start {s : State} {p : UnresolvedProgram} (h : s.status = .idle) (hp : s.startPending = true)
    (hu : s.program = .unresolved p) : step s = .next (startRun p s) := by
  simp [step, h, idleStep, hp, hu]

theorem step_running {s : State} {p : ResolvedProgram} (h : s.status = .running) (hr : s.program = .resolved p) :
    step s = runStep p s := by
  simp [step, h, hr]

theorem step_running_fetched {s : State} {p : ResolvedProgram} {e : Entry} {i : Instr} (h : s.status = .running)
    (hr : s.program = .resolved p) (he : p.entries[s.pc.toNat]? = some e) (hd : decode e.word = .ok i) :
    step s = exec i s.countFetch := by
  simp [step_running h hr, runStep, fetchWord_eq, he, hd]

theorem step_running_ended {s : State} {p : ResolvedProgram} (h : s.status = .running) (hr : s.program = .resolved p)
    (hp : p.entries.length ≤ s.pc.toNat) : step s = .next s.halt := by
  simp [step_running h hr, runStep, fetchWord_eq, List.getElem?_eq_none hp]

theorem startRun_invalid {s : State} {p : UnresolvedProgram} {k : Nat} (h : firstInvalid p.entries = some k) :
    startRun p s = s.takeStart.raiseMalformed k := by
  simp [startRun, h]

theorem startRun_valid {s : State} {p : UnresolvedProgram} (h : firstInvalid p.entries = none) :
    startRun p s = { s.takeStart with program := .resolved (resolve p), status := .running } := by
  simp [startRun, h]

/-- Everything a step can do when it answers a next state: wait for the start; reject; resolve and begin; end the run; execute
the instruction at `pc`; stay halted or rejected. -/
theorem step_cases {s t : State} (h : step s = .next t) :
    (s.status = .idle ∧ s.startPending = false ∧ t = s) ∨
    (s.status = .idle ∧ s.startPending = true ∧ ∃ p k, s.program = .unresolved p ∧ firstInvalid p.entries = some k ∧
      t = s.takeStart.raiseMalformed k) ∨
    (s.status = .idle ∧ s.startPending = true ∧ ∃ p, s.program = .unresolved p ∧ firstInvalid p.entries = none ∧
      t = { s.takeStart with program := .resolved (resolve p), status := .running }) ∨
    (s.status = .running ∧ ∃ p, s.program = .resolved p ∧ p.entries.length ≤ s.pc.toNat ∧ t = s.halt) ∨
    (s.status = .running ∧ ∃ p e i, s.program = .resolved p ∧ p.entries[s.pc.toNat]? = some e ∧ decode e.word = .ok i ∧
      exec i s.countFetch = .next t) ∨
    ((s.status = .halted ∨ s.status = .rejected) ∧ t = s) := by
  cases hs : s.status with
  | idle =>
    cases hp : s.startPending with
    | false =>
      rw [step_idle_waiting hs hp] at h
      exact .inl ⟨rfl, rfl, by simpa using h.symm⟩
    | true =>
      cases hu : s.program with
      | resolved p => simp [step, hs, idleStep, hp, hu] at h
      | unresolved p =>
        rw [step_idle_start hs hp hu] at h
        cases hi : firstInvalid p.entries with
        | none =>
          rw [startRun_valid hi] at h
          exact .inr (.inr (.inl ⟨rfl, rfl, p, rfl, hi, by simpa using h.symm⟩))
        | some k =>
          rw [startRun_invalid hi] at h
          exact .inr (.inl ⟨rfl, rfl, p, k, rfl, hi, by simpa using h.symm⟩)
  | running =>
    cases hr : s.program with
    | unresolved p => simp [step, hs, hr] at h
    | resolved p =>
      by_cases hp : p.entries.length ≤ s.pc.toNat
      · rw [step_running_ended hs hr hp] at h
        exact .inr (.inr (.inr (.inl ⟨rfl, p, rfl, hp, by simpa using h.symm⟩)))
      · obtain ⟨e, he⟩ : ∃ e, p.entries[s.pc.toNat]? = some e := ⟨_, List.getElem?_eq_getElem (by omega)⟩
        cases hd : decode e.word with
        | error r => simp [step_running hs hr, runStep, fetchWord_eq, he, hd] at h
        | ok i =>
          rw [step_running_fetched hs hr he hd] at h
          exact .inr (.inr (.inr (.inr (.inl ⟨rfl, p, e, i, rfl, he, hd, h⟩))))
  | halted =>
    simp only [step, hs] at h
    exact .inr (.inr (.inr (.inr (.inr ⟨.inl rfl, by simpa using h.symm⟩))))
  | rejected =>
    simp only [step, hs] at h
    exact .inr (.inr (.inr (.inr (.inr ⟨.inr rfl, by simpa using h.symm⟩))))

/-- Every instruction answers a next state (R138), and leaves the instruction store, the phase and the fetch count to the loop (R133). -/
theorem exec_total (i : Instr) (s : State) :
    ∃ t, exec i s = .next t ∧ t.program = s.program ∧ t.status = s.status ∧ t.rejIndex = s.rejIndex ∧
      t.startPending = s.startPending ∧ t.instret = s.instret := by
  cases i with
  | mov rd imm => exact ⟨_, rfl, rfl, rfl, rfl, rfl, rfl⟩
  | add ra rb => exact ⟨_, rfl, rfl, rfl, rfl, rfl, rfl⟩
  | addi rd imm => exact ⟨_, rfl, rfl, rfl, rfl, rfl, rfl⟩
  | cmp ra rb => exact ⟨_, rfl, rfl, rfl, rfl, rfl, rfl⟩
  | je tgt => exact ⟨_, rfl, by split <;> rfl, by split <;> rfl, by split <;> rfl, by split <;> rfl, by split <;> rfl⟩
  | jmp tgt => exact ⟨_, rfl, rfl, rfl, rfl, rfl, rfl⟩
  | ld ra rb => exact ⟨_, rfl, by simp, by simp, by simp, by simp, by simp⟩
  | st ra rb => exact ⟨_, rfl, by simp, by simp, by simp, by simp, by simp⟩

/-- The frame of `exec_total` for a next state in hand. -/
theorem exec_control {i : Instr} {s t : State} (h : exec i s = .next t) :
    t.program = s.program ∧ t.status = s.status ∧ t.rejIndex = s.rejIndex ∧ t.startPending = s.startPending ∧
      t.instret = s.instret := by
  obtain ⟨u, hu, rest⟩ := exec_total i s
  rw [hu] at h
  obtain rfl : u = t := by simpa using h
  exact rest

/-- A placed word is the entry at its index (log 7). -/
theorem place_getElem? (img : Image) (n : Nat) (w : IWord) : ∃ l, (Image.place img n w)[n]? = some ⟨w, l⟩ := by
  induction n generalizing img with
  | zero => cases img <;> simp [Image.place]
  | succ n ih => cases img <;> simpa [Image.place] using ih _

end Sys2Proof.Machine
end

