-- ==== Sys2Proof/Tests/Slice0.lean ====
section
/-! SUPPORT. Tests: expected values are the vectors of spec/95_test_vectors.md (V, P, S) or written out by hand from the rule named; then, for
every statement of Certificates/Slice0/Obligations.lean that has hypotheses, states and operands that meet them (witness_…). -/

namespace Sys2Proof.Tests

open Sys2Proof Sys2Proof.Machine

/-! ### Well-formedness: each check refuses an ill-formed term (R80, R183, R6) -/

theorem test_wf_accepts_mov : (InstrRecord.mk .move 0 (-1) 5 0).wellFormed = true := by decide
theorem test_wf_register_six : (InstrRecord.mk .move 6 (-1) 5 0).wellFormed = false := by decide
theorem test_wf_register_unset : (InstrRecord.mk .compare 0 (-1) 0 0).wellFormed = false := by decide
theorem test_wf_unused_register_set : (InstrRecord.mk .move 0 1 5 0).wellFormed = false := by decide
theorem test_wf_branch_with_register : (InstrRecord.mk .jump 0 (-1) 0 7).wellFormed = false := by decide
theorem test_wf_immediate_high : (InstrRecord.mk .addImmediate 0 (-1) 128 0).wellFormed = false := by decide
theorem test_wf_immediate_low : (InstrRecord.mk .addImmediate 0 (-1) (-129) 0).wellFormed = false := by decide
theorem test_wf_target_wide : (InstrRecord.mk .jumpIfEqual (-1) (-1) 0 65536).wellFormed = false := by decide
theorem test_wf_invalid_opcode : (InstrRecord.mk .invalid 0 0 0 0).wellFormed = false := by decide
theorem test_wf_resolved_target : (Instr.je 5#16).wellFormed 5 = true ∧ (Instr.je 6#16).wellFormed 5 = false := by decide
theorem test_wf_image_too_long : Image.lengthOk (List.replicate 65536 ⟨0#32, 0#16⟩) = false := by
  unfold Image.lengthOk
  rw [List.length_replicate]
  rfl

/-! ### Decoding: words written bit by bit from R82 and R85; V80 to V98 -/

theorem test_decode_mov : decode 0b0000_101_00000000000000000_11111111#32 = .ok (.mov 5 0xFF#8) := by decide
theorem test_decode_add : decode 0b0001_000_001_0000000000000000000000#32 = .ok (.add 0 1) := by decide
theorem test_decode_addi : decode 0b0010_010_00000000000000000_00000001#32 = .ok (.addi 2 0x01#8) := by decide
theorem test_decode_cmp : decode 0b0011_101_100_0000000000000000000000#32 = .ok (.cmp 5 4) := by decide
theorem test_decode_je : decode 0b0100_000000000000_0000000000000110#32 = .ok (.je 6#16) := by decide
theorem test_decode_jmp : decode 0b0101_000000000000_1111111111111111#32 = .ok (.jmp 65535#16) := by decide
theorem test_decode_ld : decode 0b0110_001_000_0000000000000000000000#32 = .ok (.ld 1 0) := by decide
theorem test_decode_st : decode 0b0111_010_101_0000000000000000000000#32 = .ok (.st 2 5) := by decide
theorem test_decode_reserved : decode 0x80000000#32 = .error .reservedOp ∧ decode 0xFFFFFFFF#32 = .error .reservedOp := by decide
theorem test_decode_must_be_zero :
    [0x00000100#32, 0x21000000#32, 0x10000001#32, 0x30200000#32, 0x40010000#32, 0x4A000000#32].map decode =
      List.replicate 6 (.error .mustBeZero) := by decide
theorem test_decode_bad_register :
    [0x0C000000#32, 0x0E000005#32, 0x11800000#32, 0x6FC00000#32].map decode = List.replicate 4 (.error .badRegister) := by
  decide
theorem test_decode_zero_word : decode 0x00000000#32 = .ok (.mov 0 0x00#8) := by decide
theorem test_decode_table_word : decodeTableWord 32 0x75400000 = some (.st 2 5) := by decide
theorem test_record_of_st : (Instr.st 2 5).toRecord = ⟨.store, 2, 5, 0, 0⟩ := by decide
theorem test_record_of_invalid : decodeRecord 0x80000000#32 = ⟨.invalid, -1, -1, 0, 0⟩ := by decide

/-! ### One step of each instruction -/

/-- A state with two registers and a flag set, the rest as at reset. -/
def two (x0 x1 : Byte) (b : Bool) : State :=
  { State.reset with regs := #v[x0, x1, 0x00#8, 0x00#8, 0x00#8, 0x00#8], eq := b }

/-- The same with one listed memory byte and some warm addresses. -/
def twoMem (x0 x1 : Byte) (m : List Host.Cell) (t : List Nat) : State :=
  { State.reset with regs := #v[x0, x1, 0x00#8, 0x00#8, 0x00#8, 0x00#8], mem := m, touched := t }

/-- The outcome is exactly this next state. -/
def isNext (o : Host.Outcome State Fault Refusal) (t : State) : Bool :=
  match o with
  | .next u => decide (u = t)
  | .fault _ => false
  | .refused _ => false

/-- An instruction takes the one state to exactly the other. -/
def goes (i : Instr) (s t : State) : Bool := isNext (exec i s) t

/-- V2. -/
theorem test_mov : goes (.mov 1 0xFF#8) { two 0x00#8 0x37#8 false with cycles := 4, pc := 2#16 }
    { two 0x00#8 0xFF#8 false with cycles := 5, pc := 3#16 } = true := by decide
/-- V6: the flag is kept. -/
theorem test_mov_keeps_eq : goes (.mov 0 0x01#8) (two 0x00#8 0x00#8 true)
    { two 0x01#8 0x00#8 true with cycles := 1, pc := 1#16 } = true := by decide
/-- V13. -/
theorem test_add_wraps : goes (.add 0 1) (two 0x80#8 0xFF#8 true)
    { two 0x7F#8 0xFF#8 true with cycles := 1, pc := 1#16 } = true := by decide
/-- V19: one register in both positions. -/
theorem test_add_doubles : goes (.add 0 0) (two 0xFF#8 0x00#8 false)
    { two 0xFE#8 0x00#8 false with cycles := 1, pc := 1#16 } = true := by decide
/-- V20 on R2: 127 + 1 = -128. -/
theorem test_addi : goes (.addi 1 0x01#8) (two 0x00#8 0x7F#8 false)
    { two 0x00#8 0x80#8 false with cycles := 1, pc := 1#16 } = true := by decide
/-- V22. -/
theorem test_addi_negative : goes (.addi 0 0xFF#8) (two 0x80#8 0x00#8 false)
    { two 0x7F#8 0x00#8 false with cycles := 1, pc := 1#16 } = true := by decide
/-- V30. -/
theorem test_cmp_equal : goes (.cmp 0 1) (two 0x05#8 0x05#8 false)
    { two 0x05#8 0x05#8 true with cycles := 1, pc := 1#16 } = true := by decide
/-- V34: a true flag is cleared. -/
theorem test_cmp_differ : goes (.cmp 0 1) (two 0x00#8 0x80#8 true)
    { two 0x00#8 0x80#8 false with cycles := 1, pc := 1#16 } = true := by decide
/-- V50. -/
theorem test_je_taken : goes (.je 5#16) { two 0x00#8 0x00#8 true with cycles := 3, pc := 3#16 }
    { two 0x00#8 0x00#8 true with cycles := 4, pc := 5#16 } = true := by decide
/-- V51. -/
theorem test_je_not_taken : goes (.je 5#16) { two 0x00#8 0x00#8 false with cycles := 3, pc := 3#16 }
    { two 0x00#8 0x00#8 false with cycles := 4, pc := 4#16 } = true := by decide
/-- V56. -/
theorem test_jmp : goes (.jmp 2#16) { two 0x00#8 0x00#8 false with cycles := 55, pc := 6#16 }
    { two 0x00#8 0x00#8 false with cycles := 56, pc := 2#16 } = true := by decide
/-- V59. -/
theorem test_jmp_keeps_eq : goes (.jmp 2#16) (two 0x00#8 0x00#8 true)
    { two 0x00#8 0x00#8 true with cycles := 1, pc := 2#16 } = true := by decide
/-- V62: the address is read before the destination is written; cold. -/
theorem test_ld_same_register : goes (.ld 0 0) (twoMem 0x10#8 0x00#8 [(16, 0x20#8)] [])
    { twoMem 0x20#8 0x00#8 [(16, 0x20#8)] [16] with cycles := 50, ldst := 1, pc := 1#16 } = true := by decide
/-- V61: warm. -/
theorem test_ld_warm : goes (.ld 1 0) (twoMem 0x10#8 0x00#8 [(16, 0xAB#8)] [16])
    { twoMem 0x10#8 0xAB#8 [(16, 0xAB#8)] [16] with cycles := 2, localHits := 1, ldst := 1, pc := 1#16 } = true := by decide
/-- V65: the address is the unsigned reading; cold. -/
theorem test_st_cold : goes (.st 0 1) { twoMem 0x80#8 0xFF#8 [] [] with cycles := 3 }
    { twoMem 0x80#8 0xFF#8 [(128, 0xFF#8)] [128] with cycles := 53, ldst := 1, pc := 1#16 } = true := by decide
/-- R41, R201: storing `0x00` over a listed byte unlists it; warm, as in V67. -/
theorem test_st_zero_warm : goes (.st 0 1) (twoMem 0x10#8 0x00#8 [(16, 0xAB#8), (17, 0x01#8)] [16])
    { twoMem 0x10#8 0x00#8 [(17, 0x01#8)] [16] with cycles := 2, localHits := 1, ldst := 1, pc := 1#16 } = true := by decide

/-! ### The resolver, validation, the host -/

/-- The words of an image. -/
def words (img : Image) : List IWord := img.map (·.word)

/-- V42: no line 80 among seven. -/
theorem test_resolve_missing : words (resolve ⟨[⟨0#32, 10#16⟩, ⟨0x40000050#32, 20#16⟩, ⟨0#32, 30#16⟩]⟩).entries =
    [0#32, 0x40000003#32, 0#32] := by decide
/-- V43: duplicates. -/
theorem test_resolve_duplicates : words (resolve ⟨[⟨0#32, 5#16⟩, ⟨0#32, 5#16⟩, ⟨0x50000005#32, 7#16⟩]⟩).entries =
    [0#32, 0#32, 0x50000000#32] := by decide
/-- V46: file order. -/
theorem test_resolve_file_order : words (resolve ⟨[⟨0#32, 30#16⟩, ⟨0#32, 10#16⟩, ⟨0x5000000A#32, 20#16⟩]⟩).entries =
    [0#32, 0#32, 0x50000001#32] := by decide
/-- V49: a second pass, on the result taken for an unresolved program, would give another target (R184). -/
theorem test_resolve_twice :
    words (resolve ⟨(resolve ⟨[⟨0x5000001E#32, 10#16⟩, ⟨0#32, 20#16⟩, ⟨0#32, 30#16⟩]⟩).entries⟩).entries =
      [0x50000003#32, 0#32, 0#32] := by decide
/-- R180: a word that is no branch keeps its low bits. -/
theorem test_resolve_other : words (resolve ⟨[⟨0x00000002#32, 1#16⟩, ⟨0x10400000#32, 2#16⟩]⟩).entries =
    [0x00000002#32, 0x10400000#32] := by decide

/-- P10's image. -/
def badImage : Image := [⟨0x00000005#32, 1#16⟩, ⟨0x80000000#32, 2#16⟩, ⟨0x0C000000#32, 3#16⟩]

/-- P10. -/
theorem test_reject : isNext (step (boot badImage))
    { State.reset with program := .unresolved ⟨badImage⟩, status := .rejected, rejIndex := 1 } = true := by decide
/-- P10: no report; the rejected entry can be read. -/
theorem test_reject_read : report { boot badImage with status := .rejected, rejIndex := 1 } = none ∧
    rejection { boot badImage with status := .rejected, rejIndex := 1 } = some (1, some 0x80000000#32) := by decide
/-- R222. -/
theorem test_cause_code : State.reset.causeCode = 0 ∧ { State.reset with status := .rejected }.causeCode = 1 := by decide
/-- S11's numbers. -/
theorem test_report : report { State.reset with status := .halted, instret := 3, cycles := 53, localHits := 1, ldst := 2 } =
    some ⟨3, 53, 1, 2⟩ := by decide
/-- R235: no load while Running. -/
theorem test_load_ignored : isNext (hostLoad badImage { State.reset with status := .running })
    { State.reset with status := .running } = true := by decide
/-- R191: a Running machine does not run an unresolved program, and a start does not resolve a resolved one. -/
theorem test_wrong_form : step { boot [] with status := .running } = .fault .wrongForm ∧
    step { State.reset with program := .resolved ⟨[]⟩, startPending := true } = .fault .wrongForm := by
  constructor <;> rfl
/-- R191: the target of a branch to an existing line is a validated index, of one to a missing line the sentinel (V40, V42). -/
theorem test_resolve_target : resolveTarget [⟨0x40000003#32, 1#16⟩, ⟨0#32, 2#16⟩, ⟨0#32, 3#16⟩] 3#16 = .index 2 ∧
    resolveTarget [⟨0x40000050#32, 1#16⟩, ⟨0#32, 2#16⟩, ⟨0#32, 3#16⟩] 80#16 = .sentinel ∧
    (resolveInstr [⟨0x40000050#32, 1#16⟩] ⟨.je 80#16⟩).instr = .je 1#16 := by decide
/-- A table word placed after reset is the next instruction (log 7). -/
theorem test_fetch_word : isNext (step (State.reset.withFetchWord 32 0x00000005))
    { State.reset.withFetchWord 32 0x00000005 with
      regs := #v[0x05#8, 0x00#8, 0x00#8, 0x00#8, 0x00#8, 0x00#8], instret := 1, cycles := 1, pc := 1#16 } = true := by decide

/-! ### The assembler (V100 to V154) -/

theorem test_asm_delimiters : parseLine .reject "  12\tADD R3,,R4 \r".toList = .ok (some ⟨0x14C00000#32, 12#16⟩) := by decide
theorem test_asm_no_brackets : parseLine .reject "3 LD R2 R1".toList = .ok (some ⟨0x62000000#32, 3#16⟩) := by decide
theorem test_asm_st : parseLine .reject "9 ST [R3], R6".toList = .ok (some ⟨0x75400000#32, 9#16⟩) := by decide
theorem test_asm_leading_zeros : parseLine .reject "007 MOV R1, 007".toList = .ok (some ⟨0x00000007#32, 7#16⟩) := by decide
theorem test_asm_minus_zero : parseLine .reject "19 MOV R1, -0".toList = .ok (some ⟨0x00000000#32, 19#16⟩) := by decide
theorem test_asm_addi : parseLine .reject "65535 ADD R2, -128".toList = .ok (some ⟨0x22000080#32, 65535#16⟩) := by decide
theorem test_asm_blank : parseLine .reject ",, [ ]\t".toList = .ok none := by decide
theorem test_asm_operand_count : parseLine .reject "7 ADD R1".toList = .error .operandCount ∧
    parseLine .reject "4 JE 6 7".toList = .error .operandCount := by decide
theorem test_asm_too_many : parseLine .reject "15 ST [R1], R2, R3".toList = .error .tooManyFields := by decide
theorem test_asm_keyword : parseLine .reject "8 HALT".toList = .error .unknownKeyword ∧
    parseLine .reject "9 mov R1, 1".toList = .error .unknownKeyword ∧ parseLine .reject "18".toList = .error .noKeyword := by
  decide
theorem test_asm_register : parseLine .reject "6 MOV R0, 1".toList = .error .badRegister ∧
    parseLine .reject "6 MOV R12, 1".toList = .error .badRegister ∧
    parseLine .reject "13 CMP R1, 5".toList = .error .badRegister ∧
    parseLine .reject "12 ADD R1, Rx".toList = .error .badRegister := by decide
theorem test_asm_number : parseLine .reject "14 MOV R1, R2".toList = .error .badNumber ∧
    parseLine .reject "11 ADD R1, +1".toList = .error .badNumber ∧
    parseLine .reject "11 ADD R1, 5x".toList = .error .badNumber := by decide
theorem test_asm_line_number : parseLine .reject "MOV R1, 5".toList = .error .badLineNumber ∧
    parseLine .reject "65536 MOV R1, 1".toList = .error .badLineNumber := by decide
theorem test_asm_target : parseLine .reject "16 JE -1".toList = .error .badTarget ∧
    parseLine .reject "16 JMP 65536".toList = .error .badTarget := by decide
theorem test_asm_reject : parseLine .reject "10 MOV R1, 128".toList = .error .immOutOfRange ∧
    parseLine .reject "10 MOV R1, -128".toList = .ok (some ⟨0x00000080#32, 10#16⟩) := by decide
theorem test_asm_wrap : parseLine .wrap "10 MOV R1, 300".toList = .ok (some ⟨0x0000002C#32, 10#16⟩) ∧
    parseLine .wrap "10 ADD R1, 255".toList = .ok (some ⟨0x200000FF#32, 10#16⟩) := by decide
/-- The whole text at the end of section 8 of spec/95_test_vectors.md. -/
theorem test_asm_text : assemble .reject "30 MOV R1,64\n10 ADD R1,R1\n\n20 CMP R1,R2".toList =
    .image [⟨0x00000040#32, 30#16⟩, ⟨0x10000000#32, 10#16⟩, ⟨0x30400000#32, 20#16⟩] := by decide

/-! ### Witnesses: states and operands that meet the hypotheses of the statements -/

/-- A resolved program of one instruction word. -/
def oneWord (w : IWord) : ResolvedProgram := ⟨[⟨w, 1#16⟩]⟩

/-- A running machine with that program, at its word. -/
def running (w : IWord) : State := { State.reset with program := .resolved (oneWord w), status := .running }

/-- A machine whose program has ended: the empty program, while the loop test has yet to fail. -/
def ended : State := { State.reset with program := .resolved ⟨[]⟩, status := .running }

theorem witness_decoded_word : decode 0x10400000#32 = .ok (.add 0 1) := by decide
/-- For the opcode map and its disjointness. -/
theorem witness_selected_row : (⟨"LD", 0x60000000#32, 0xF03FFFFF#32⟩ : OpcodeRow) ∈ opcodeRows ∧
    (⟨"LD", 0x60000000#32, 0xF03FFFFF#32⟩ : OpcodeRow).selects 0x6B400000#32 = true ∧ (raField 0x6B400000#32).toNat ≤ 5 ∧
    (rbField 0x6B400000#32).toNat ≤ 5 := by decide
theorem witness_ImmediateIsAByte_low : (-128 : Int) ≤ -128 ∧ (-128 : Int) ≤ 127 ∧ s8 (byteOfInt (-128)) = -128 := by decide
theorem witness_ImmediateIsAByte_high : (-128 : Int) ≤ 127 ∧ (127 : Int) ≤ 127 ∧ s8 (byteOfInt 127) = 127 := by decide
/-- For ST, and for a load after a store through another register of the same value. -/
theorem witness_StStoresTheByte :
    Memory.wf (twoMem 0xFF#8 0xFF#8 [(0, 0x01#8), (255, 0x02#8)] [255]).mem = true ∧
    (twoMem 0xFF#8 0xFF#8 [(0, 0x01#8), (255, 0x02#8)] [255]).effAddr 0 = 255 ∧
    (twoMem 0xFF#8 0xFF#8 [(0, 0x01#8), (255, 0x02#8)] [255]).readReg 1 =
      (twoMem 0xFF#8 0xFF#8 [(0, 0x01#8), (255, 0x02#8)] [255]).readReg 0 := by decide
/-- For the statements over `exec i s = .next t`: R28, R31, R260, R64, and R31's with `eq` and R28's with `pc` replaced. -/
theorem witness_exec : goes (.cmp 0 1) (two 0x05#8 0x05#8 false) { two 0x05#8 0x05#8 true with cycles := 1, pc := 1#16 } = true ∧
    goes (.cmp 0 1) { two 0x05#8 0x05#8 false with eq := true }
      { two 0x05#8 0x05#8 true with cycles := 1, pc := 1#16 } = true ∧
    goes (.cmp 0 1) { two 0x05#8 0x05#8 false with pc := 9#16 }
      { two 0x05#8 0x05#8 true with cycles := 1, pc := 10#16 } = true := by decide
/-- R31: an instruction that is no CMP, and one that is no JE. -/
theorem witness_CompareFlag : (∀ ra rb, Instr.mov 0 0x01#8 ≠ .cmp ra rb) ∧ (∀ tgt, Instr.cmp 0 1 ≠ .je tgt) ∧
    (two 0x00#8 0x00#8 false).eq = false := by
  refine ⟨by simp, by simp, rfl⟩
/-- R260: a step that is no instruction's, and a halt. -/
theorem witness_CostTable_halted : { State.reset with status := .halted }.status ≠ .running ∧
    isNext (step { State.reset with status := .halted }) { State.reset with status := .halted } = true ∧
    isNext (step ended) { ended with status := .halted } = true := by decide
theorem witness_WarmUntilReset_step : { running 0x70000000#32 with touched := [3] }.isTouched 3 = true ∧
    isNext (step { running 0x70000000#32 with touched := [3] })
      { running 0x70000000#32 with touched := [0, 3], instret := 1, cycles := 50, ldst := 1, pc := 1#16 } = true := by decide
theorem witness_WarmUntilReset_host : HostInput.start ≠ .reset ∧ (twoMem 0x00#8 0x00#8 [] [3]).isTouched 3 = true ∧
    isNext (hostApply .start (twoMem 0x00#8 0x00#8 [] [3])) { twoMem 0x00#8 0x00#8 [] [3] with startPending := true } = true ∧
    isNext (hostApply .reset (twoMem 0x00#8 0x00#8 [] [3])) State.reset = true := by decide
/-- R58's clauses on LD and ST at a cold and at a warm address. -/
theorem witness_TouchedAffectsCostOnly_data :
    (twoMem 0x10#8 0x00#8 [(16, 0xAB#8)] []).isTouched ((twoMem 0x10#8 0x00#8 [(16, 0xAB#8)] []).effAddr 0) = false ∧
    (twoMem 0x10#8 0x00#8 [(16, 0xAB#8)] [16]).isTouched ((twoMem 0x10#8 0x00#8 [(16, 0xAB#8)] [16]).effAddr 0) = true ∧
    Memory.wf (twoMem 0x10#8 0x00#8 [(16, 0xAB#8)] [16]).mem = true := by decide
/-- R58: two states that differ in warmth and in a counter, and both step. -/
theorem witness_TouchedAffectsCostOnly_next :
    AgreeButCost (running 0x60000000#32) { running 0x60000000#32 with touched := [0], cycles := 7 } ∧
    isNext (step (running 0x60000000#32))
      { running 0x60000000#32 with touched := [0], instret := 1, cycles := 50, ldst := 1, pc := 1#16 } = true :=
  ⟨⟨rfl, rfl, rfl, rfl, rfl, rfl, rfl, rfl⟩, by decide⟩
theorem witness_TouchedAffectsCostOnly_fault :
    AgreeButCost (running 0x80000000#32) { running 0x80000000#32 with touched := [0] } ∧
    step (running 0x80000000#32) = .fault .invalidWord :=
  ⟨⟨rfl, rfl, rfl, rfl, rfl, rfl, rfl, rfl⟩, rfl⟩
/-- R64: the step that writes the instruction store. -/
theorem witness_StoresNeverChangeInstructions :
    isNext (step (boot [⟨0x50000007#32, 7#16⟩])) { running 0#32 with program := .resolved ⟨[⟨0x50000000#32, 7#16⟩]⟩ } = true ∧
    Program.resolved ⟨[⟨0x50000000#32, 7#16⟩]⟩ ≠ (boot [⟨0x50000007#32, 7#16⟩]).program := by decide
/-- For StepRunsTheDecodedInstruction, HowThePcMoves and CountersNeverDecrease. -/
theorem witness_StepRunsTheDecodedInstruction : (running 0x10400000#32).status = .running ∧
    (running 0x10400000#32).program = .resolved (oneWord 0x10400000#32) ∧
    (oneWord 0x10400000#32).entries[(running 0x10400000#32).pc.toNat]? = some ⟨0x10400000#32, 1#16⟩ ∧
    decode 0x10400000#32 = .ok (.add 0 1) ∧
    isNext (step (running 0x10400000#32)) { running 0x10400000#32 with instret := 1, cycles := 1, pc := 1#16 } = true := by
  decide
theorem witness_LoopTestEndsTheRun : { running 0#32 with pc := 1#16 }.status = .running ∧
    { running 0#32 with pc := 1#16 }.program = .resolved (oneWord 0#32) ∧
    (oneWord 0#32).entries.length ≤ { running 0#32 with pc := 1#16 }.pc.toNat := by decide
theorem witness_InvalidWordAtFetchFaults : (running 0x80000000#32).status = .running ∧
    (running 0x80000000#32).program = .resolved (oneWord 0x80000000#32) ∧
    (oneWord 0x80000000#32).entries[(running 0x80000000#32).pc.toNat]? = some ⟨0x80000000#32, 1#16⟩ ∧
    isInvalid 0x80000000#32 = true := by decide
theorem witness_PlacedWordRunsNext : decodeTableWord 32 0x00000005 = some (.mov 0 0x05#8) := by decide
theorem witness_EmptyProgram : StepsTo 1 (boot []) ended := ⟨_, rfl, rfl⟩
/-- R141: MOV R1, 5; ADD R1, R2, which are no branches. -/
theorem witness_StraightLineProgramsHalt : ([⟨0x00000005#32, 1#16⟩, ⟨0x10400000#32, 2#16⟩] : Image).length ≤ 65535 ∧
    ∀ e ∈ ([⟨0x00000005#32, 1#16⟩, ⟨0x10400000#32, 2#16⟩] : Image), ∃ i, decode e.word = .ok i ∧ straight i = true := by
  refine ⟨by decide, fun e he => ?_⟩
  simp only [List.mem_cons, List.not_mem_nil, or_false] at he
  rcases he with rfl | rfl
  · exact ⟨.mov 0 0x05#8, by decide, rfl⟩
  · exact ⟨.add 0 1, by decide, rfl⟩
theorem witness_SelfBranchDiverges_jmp : (running 0x50000000#32).program = .resolved (oneWord 0x50000000#32) ∧
    (oneWord 0x50000000#32).entries[(running 0x50000000#32).pc.toNat]? =
    some ⟨0x50000000#32, 1#16⟩ ∧ decode 0x50000000#32 = .ok (.jmp (running 0x50000000#32).pc) := by decide
theorem witness_SelfBranchDiverges_je : { running 0x40000000#32 with eq := true }.program =
    .resolved (oneWord 0x40000000#32) ∧
    (oneWord 0x40000000#32).entries[{ running 0x40000000#32 with eq := true }.pc.toNat]? =
    some ⟨0x40000000#32, 1#16⟩ ∧ decode 0x40000000#32 = .ok (.je { running 0x40000000#32 with eq := true }.pc) ∧
    { running 0x40000000#32 with eq := true }.eq = true := by decide
theorem witness_InvalidImageIsRejected : (boot badImage).status = .idle ∧ (boot badImage).startPending = true ∧
    (boot badImage).program = .unresolved ⟨badImage⟩ ∧ badImage[1]? = some ⟨0x80000000#32, 2#16⟩ ∧ isInvalid 0x80000000#32 = true ∧
    ∀ j f, j < 1 → badImage[j]? = some f → isInvalid f.word = false := by
  refine ⟨rfl, rfl, rfl, rfl, by decide, fun j f hj hf => ?_⟩
  obtain rfl : j = 0 := by omega
  obtain rfl : (⟨0x00000005#32, 1#16⟩ : Entry) = f := by simpa [badImage] using hf
  decide
/-- A branch to a line that exists, and one to a line that does not. -/
def branches : Image := [⟨0x50000014#32, 10#16⟩, ⟨0x40000063#32, 20#16⟩, ⟨0x00000001#32, 20#16⟩]
theorem witness_ValidImageIsResolvedAndRuns : (boot branches).status = .idle ∧ (boot branches).startPending = true ∧
    (boot branches).program = .unresolved ⟨branches⟩ ∧ ∀ e ∈ branches, isInvalid e.word = false := by decide
/-- R40: reset, the start accepted, the start rejected, the halt, and a stutter. -/
theorem witness_StatusChangesByTheTable :
    isNext (react (.host .reset) { State.reset with status := .halted }) State.reset = true ∧
    isNext (react .clock (boot [])) ended = true ∧
    isNext (react .clock (boot badImage)) { State.reset with program := .unresolved ⟨badImage⟩, status := .rejected, rejIndex := 1 } = true ∧
    isNext (react .clock ended) { ended with status := .halted } = true ∧
    Event.clock ≠ .host .reset ∧ { State.reset with status := .rejected }.status = .rejected := by decide
/-- R180, R181, with two entries of line 20: the first is the target. -/
theorem witness_LowestMatchingLineIsTheTarget : branches.length ≤ 65535 ∧ branches[0]? = some ⟨0x50000014#32, 10#16⟩ ∧
    isBranchWord 0x50000014#32 = true ∧ branches[1]? = some ⟨0x40000063#32, 20#16⟩ ∧ (20#16 : LineNo) = tgtField 0x50000014#32 ∧
    (∀ i f, i < 1 → branches[i]? = some f → f.line ≠ tgtField 0x50000014#32) ∧ branches[2]? = some ⟨0x00000001#32, 20#16⟩ ∧
    (resolve ⟨branches⟩).entries[0]? = some ⟨0x50000001#32, 10#16⟩ ∧ isBranchWord 0x50000001#32 = true := by
  refine ⟨by decide, rfl, by decide, rfl, by decide, fun i f hi hf => ?_, rfl, by decide, by decide⟩
  obtain rfl : i = 0 := by omega
  obtain rfl : (⟨0x50000014#32, 10#16⟩ : Entry) = f := by simpa [branches] using hf
  decide
theorem witness_MissingLineEndsTheRun_resolve : branches[1]? = some ⟨0x40000063#32, 20#16⟩ ∧ isBranchWord 0x40000063#32 = true ∧
    (∀ e ∈ branches, e.line ≠ tgtField 0x40000063#32) := by decide
theorem witness_MissingLineEndsTheRun_run : (running 0x50000001#32).status = .running ∧
    (running 0x50000001#32).program = .resolved (oneWord 0x50000001#32) ∧
    (oneWord 0x50000001#32).entries[(running 0x50000001#32).pc.toNat]? = some ⟨0x50000001#32, 1#16⟩ ∧
    decode 0x50000001#32 = .ok (.jmp 1#16) ∧ (1#16 : Index).toNat = (oneWord 0x50000001#32).entries.length ∧
    decode 0x40000001#32 = .ok (.je 1#16) ∧ { running 0x40000001#32 with eq := true }.eq = true := by decide
/-- R183 at both ends of the range, and at the sentinel in `pc`. -/
theorem witness_ResolvedTargetsAreInRange : (⟨0x50000001#32, 10#16⟩ : Entry) ∈ (resolve ⟨branches⟩).entries ∧
    (tgtField 0x50000001#32).toNat < branches.length ∧ (⟨0x40000003#32, 20#16⟩ : Entry) ∈ (resolve ⟨branches⟩).entries ∧
    (tgtField 0x40000003#32).toNat = branches.length ∧ { running 0#32 with pc := 1#16 }.pc.toNat =
    { running 0#32 with pc := 1#16 }.len := by decide
/-- R185: two images with the same tags that differ in another entry's word. -/
theorem witness_ResolverWritesTargetsOnly : branches[1]? = some ⟨0x40000063#32, 20#16⟩ ∧
    (resolve ⟨branches⟩).entries[1]? = some ⟨0x40000003#32, 20#16⟩ ∧ isBranchWord 0x00000001#32 = false ∧
    branches.map (·.line) = (⟨0x50000000#32, 10#16⟩ :: branches.drop 1).map (·.line) ∧
    branches[1]? = (⟨0x50000000#32, 10#16⟩ :: branches.drop 1)[1]? ∧ (boot branches).status = .idle := by decide
/-- For OnlyResolvedProgramsRun: the two wrong forms, and the step that makes a resolved program; its reachable states are below. -/
theorem witness_OnlyResolvedProgramsRun : { boot branches with status := .running }.status = .running ∧
    { boot branches with status := .running }.program = .unresolved ⟨branches⟩ ∧
    { State.reset with program := .resolved (oneWord 0#32), startPending := true }.status = .idle ∧
    isNext (react .clock (boot branches))
      { State.reset with program := .resolved (resolve ⟨branches⟩), status := .running } = true := by decide
theorem witness_ResolvingKeepsTheInstruction : decode 0x50000014#32 = .ok (.jmp 20#16) := by decide

/-- A running state with an executed store behind it and a load before it. -/
def busy : State :=
  { State.reset with
    mem := [(0, 0x07#8)], touched := [0], instret := 1, cycles := 50, ldst := 1, pc := 1#16, status := .running
    program := .resolved ⟨[⟨0x70000000#32, 1#16⟩, ⟨0x62000000#32, 2#16⟩, ⟨0x50000003#32, 3#16⟩]⟩ }
theorem busy_storage : StorageInv busy := by constructor <;> decide
theorem busy_counters : CounterInv busy := by refine ⟨?_, ?_, ?_, ?_⟩ <;> decide
/-- For StepKeepsTheStorageForm, StepKeepsTheCounterRelations, StepKeepsTheInvariant, ExecutionCannotFail. -/
theorem witness_Inv : Inv busy := ⟨busy_storage, busy_counters, by decide, rfl, by decide, by decide, rfl⟩
theorem witness_Inv_step : isNext (step busy) { busy with
    regs := #v[0x00#8, 0x07#8, 0x00#8, 0x00#8, 0x00#8, 0x00#8], instret := 2, cycles := 52, ldst := 2, localHits := 1,
    pc := 2#16 } = true := by decide
theorem reset_inv : Inv State.reset :=
  ⟨reset_storage, ⟨by decide, by decide, by decide, by decide⟩, by decide, ⟨rfl, rfl, rfl, rfl, rfl, rfl, rfl, rfl, rfl⟩, rfl⟩
/-- For HostInputsKeepTheInvariant: a load of a valid image right after reset. -/
theorem witness_HostInputsKeepTheInvariant : Inv State.reset ∧
    isNext (hostApply (.load branches) State.reset) { State.reset with program := .unresolved ⟨branches⟩ } = true :=
  ⟨reset_inv, by decide⟩

/-- After reset, load and start the machine is in `boot`. -/
theorem reachable_boot {img : Image} (h : Image.lengthOk img = true) : Reachable (boot img) := by
  have h1 : Reachable { State.reset with program := .unresolved ⟨img⟩ } :=
    .event (.host (.load img)) _ _ .reset (by simp [react, hostApply, hostLoad, State.loadable, h, State.reset])
  exact .event (.host .start) _ _ h1 rfl
/-- For PcStaysInRange and CyclesEqualInstructionsWithoutMemory: a reachable halted state in which one branch has executed (S8). -/
theorem witness_Reachable_halted : ∃ s, Reachable s ∧ s.status = .halted ∧ s.ldst = 0 ∧ s.instret = 1 := by
  have h0 : Reachable (boot [⟨0x50000063#32, 1#16⟩]) := reachable_boot (by decide)
  have h1 : Reachable (running 0x50000001#32) := .event .clock _ _ h0 rfl
  have h2 := Reachable.event .clock _ { running 0x50000001#32 with instret := 1, cycles := 1, pc := 1#16 } h1 rfl
  exact ⟨_, .event .clock _ _ h2 rfl, rfl, rfl, rfl⟩
/-- For RejectionRunsNothing. -/
theorem witness_Reachable_rejected : ∃ s, Reachable s ∧ s.status = .rejected ∧ s.rejIndex = 1 :=
  ⟨_, .event .clock _ _ (reachable_boot (img := badImage) (by decide)) rfl, rfl, rfl⟩
/-- For CounterRelations: a reachable state with a cold and a warm access. -/
theorem witness_Reachable_memory : ∃ s, Reachable s ∧ s.ldst = 2 ∧ s.localHits = 1 := by
  have h0 : Reachable (boot [⟨0x70000000#32, 1#16⟩, ⟨0x62000000#32, 2#16⟩]) := reachable_boot (by decide)
  exact ⟨_, .event .clock _ _ (.event .clock _ _ (.event .clock _ _ h0 rfl) rfl) rfl, rfl, rfl⟩

theorem witness_AssembledImagesAreValid : assemble .wrap "1 MOV R1, 300\n2 JMP 9".toList =
    .image [⟨0x0000002C#32, 1#16⟩, ⟨0x50000009#32, 2#16⟩] := by decide
/-- R117: a blank line and a good line before the first bad one, and a bad one after it. -/
def badLines : List (List Char) := ["".toList, "1 MOV R1, 5".toList, "7 ADD R1".toList, "8 NOP".toList]
theorem witness_OneBadLineRejectsTheText : badLines[2]? = some "7 ADD R1".toList ∧
    parseLine .reject "7 ADD R1".toList = .error .operandCount ∧
    ∀ j l, j < 2 → badLines[j]? = some l → ∃ r, parseLine .reject l = .ok r := by
  refine ⟨rfl, by decide, fun j l hj hl => ?_⟩
  obtain rfl | rfl : j = 0 ∨ j = 1 := by omega
  · obtain rfl : "".toList = l := by simpa [badLines] using hl
    exact ⟨none, by decide⟩
  · obtain rfl : "1 MOV R1, 5".toList = l := by simpa [badLines] using hl
    exact ⟨some ⟨0x00000005#32, 1#16⟩, by decide⟩
/-- R116 at both ends of the range and one past each. -/
theorem witness_ImmediateOutOfRangePolicy : intToken "-128".toList = some (-128) ∧ intToken "127".toList = some 127 ∧
    intToken "-129".toList = some (-129) ∧ intToken "128".toList = some 128 := by decide

end Sys2Proof.Tests
end

section
/-! PROOFS. The readings of a byte and `add8` as operations of `BitVec 8` (R8, R10). -/

namespace Sys2Proof

/-- The signed reading is two's complement (R8). -/
theorem s8_eq_toInt (b : Byte) : s8 b = b.toInt := by
  rw [s8, u8, BitVec.toInt_eq_toNat_cond]
  by_cases h : b.toNat < 128
  · rw [if_pos h, if_pos (by omega)]
  · rw [if_neg h, if_neg (by omega)]
    rfl

@[simp] theorem byteOfInt_u8 (b : Byte) : byteOfInt (u8 b) = b := by
  simp [byteOfInt, u8]

@[simp] theorem byteOfInt_s8 (b : Byte) : byteOfInt (s8 b) = b := by
  rw [s8_eq_toInt, byteOfInt, BitVec.ofInt_toInt]

/-- Narrowing takes sums to sums modulo 256 (R8). -/
theorem byteOfInt_add (m n : Int) : byteOfInt (m + n) = byteOfInt m + byteOfInt n :=
  BitVec.ofInt_add m n

namespace Machine

/-- `add8` is the addition of 8-bit vectors (R10). -/
theorem add8_eq_add (a b : Byte) : add8 a b = a + b := by
  rw [add8, byteOfInt_add, byteOfInt_u8, byteOfInt_u8]

/-- Settles O9: narrowing is additive and inverts both readings, so both sums narrow to `a + b`. -/
theorem addIsTheSameSignedAndUnsigned : Obligations.AddIsTheSameSignedAndUnsigned := by
  intro a b
  refine ⟨rfl, ?_⟩
  calc add8 a b = a + b := add8_eq_add a b
    _ = byteOfInt (s8 a) + byteOfInt (s8 b) := by rw [byteOfInt_s8, byteOfInt_s8]
    _ = byteOfInt (s8 a + s8 b) := (byteOfInt_add _ _).symm

end Machine

end Sys2Proof
end

section
/-! PROOFS. What an instruction does to each part of the state: `pc`, the flag, and, by `dataAddress`, memory, the `touched` flags and the counters. -/

namespace Sys2Proof.Machine

/-! ### Touching an address reads neither `pc` nor `eq` (R54) -/

theorem touch_withPc (s : State) (p : Index) (a : Nat) :
    State.touch { s with pc := p } a = { s.touch a with pc := p } := by
  cases h : Touched.flag s.touched a <;> simp [State.touch, State.isTouched, h]

theorem touch_withEq (s : State) (b : Bool) (a : Nat) :
    State.touch { s with eq := b } a = { s.touch a with eq := b } := by
  cases h : Touched.flag s.touched a <;> simp [State.touch, State.isTouched, h]

/-! ### `pc` (R28) -/

/-- The index an instruction sets `pc` to (R28, R186, R187). -/
def nextPc (i : Instr) (s : State) : Index :=
  match i with
  | .jmp tgt => tgt
  | .je tgt => if s.eq then tgt else s.pc + 1#16
  | _ => s.pc + 1#16

/-- JE sets `pc` and counts a cycle, taken or not (R186). -/
theorem exec_je (tgt : Index) (s : State) :
    exec (.je tgt) s = .next ((s.charge Config.costSimple).jump (nextPc (.je tgt) s)) := by
  cases h : s.eq with
  | true => simp [exec, execJe, nextPc, h]
  | false => simp [exec, execJe, nextPc, h, State.advance, State.jump]

theorem exec_pc {i : Instr} {s t : State} (ht : exec i s = .next t) : t.pc = nextPc i s := by
  cases i with
  | mov rd imm => cases ht; rfl
  | add ra rb => cases ht; rfl
  | addi rd imm => cases ht; rfl
  | cmp ra rb => cases ht; rfl
  | je tgt => rw [exec_je] at ht; cases ht; rfl
  | jmp tgt => cases ht; rfl
  | ld ra rb => cases ht; simp [nextPc]
  | st ra rb => cases ht; simp [nextPc]

/-- No instruction reads `pc` but to set it (R28). -/
theorem exec_withPc {i : Instr} {s t u : State} {p : Index} (ht : exec i s = .next t)
    (hu : exec i { s with pc := p } = .next u) : { u with pc := t.pc } = t := by
  cases i with
  | mov rd imm => cases ht; cases hu; rfl
  | add ra rb => cases ht; cases hu; rfl
  | addi rd imm => cases ht; cases hu; rfl
  | cmp ra rb => cases ht; cases hu; rfl
  | je tgt => rw [exec_je] at ht hu; cases ht; cases hu; rfl
  | jmp tgt => cases ht; cases hu; rfl
  | ld ra rb => cases ht; cases hu; rw [touch_withPc]; rfl
  | st ra rb => cases ht; cases hu; rw [touch_withPc]; rfl

/-- Settles O21: the loop counts the fetch at the `pc` of the state before, and no instruction reads `pc` but to set it. -/
theorem howThePcMoves : Obligations.HowThePcMoves := by
  refine ⟨fun s p k e i hs hp hk he hd => ?_, fun i s t ht => ?_, fun i s t u p => exec_withPc⟩
  · subst hk
    exact ⟨s.countFetch, rfl, rfl, step_running_fetched hs hp he hd⟩
  · rw [exec_pc ht]
    cases i <;> rfl

/-! ### The compare flag (R31) -/

/-- CMP alone writes the flag (R31). -/
theorem exec_keeps_eq {i : Instr} {s t : State} (hi : ∀ ra rb, i ≠ .cmp ra rb) (ht : exec i s = .next t) : t.eq = s.eq := by
  cases i with
  | mov rd imm => cases ht; rfl
  | add ra rb => cases ht; rfl
  | addi rd imm => cases ht; rfl
  | cmp ra rb => exact absurd rfl (hi ra rb)
  | je tgt => rw [exec_je] at ht; cases ht; rfl
  | jmp tgt => cases ht; rfl
  | ld ra rb => cases ht; simp
  | st ra rb => cases ht; simp

/-- JE alone reads the flag: the rest of the next state is the same whatever the flag holds (R31). -/
theorem exec_withEq {i : Instr} {s t u : State} {b : Bool} (hi : ∀ tgt, i ≠ .je tgt) (ht : exec i s = .next t)
    (hu : exec i { s with eq := b } = .next u) : { u with eq := t.eq } = t := by
  cases i with
  | mov rd imm => cases ht; cases hu; rfl
  | add ra rb => cases ht; cases hu; rfl
  | addi rd imm => cases ht; cases hu; rfl
  | cmp ra rb => cases ht; cases hu; rfl
  | je tgt => exact absurd rfl (hi tgt)
  | jmp tgt => cases ht; cases hu; rfl
  | ld ra rb => cases ht; cases hu; rw [touch_withEq]; rfl
  | st ra rb => cases ht; cases hu; rw [touch_withEq]; rfl

/-- Settles O22: CMP computes the flag from two registers, every other instruction keeps it, and JE with the flag false falls through. -/
theorem compareFlagHasOneWriterAndOneReader : Obligations.CompareFlagHasOneWriterAndOneReader := by
  refine ⟨fun i s t ht hi => exec_keeps_eq hi ht, fun i s t u b hi ht hu => ⟨exec_withEq hi ht hu, ?_⟩, rfl,
    fun tgt s t he ht => by simpa [nextPc, he] using exec_pc ht⟩
  rintro ⟨ra, rb, rfl⟩
  cases ht
  cases hu
  rfl

/-! ### Memory, the `touched` flags and the counters, by the instruction's data access (R260) -/

theorem dataAddress_lt {i : Instr} {s : State} {a : Nat} (h : dataAddress i s = some a) : a < Config.memSize := by
  cases i with
  | ld ra rb => cases h; exact s.effAddr_lt rb
  | st ra rb => cases h; exact s.effAddr_lt ra
  | _ => cases h

/-- An instruction without a data access leaves memory and the flags, and costs one cycle. -/
theorem exec_of_no_access {i : Instr} {s t : State} (hd : dataAddress i s = none) (ht : exec i s = .next t) :
    t.mem = s.mem ∧ t.touched = s.touched ∧ t.cycles = s.cycles + Config.costSimple ∧ t.localHits = s.localHits ∧
      t.ldst = s.ldst := by
  cases i with
  | mov rd imm => cases ht; exact ⟨rfl, rfl, rfl, rfl, rfl⟩
  | add ra rb => cases ht; exact ⟨rfl, rfl, rfl, rfl, rfl⟩
  | addi rd imm => cases ht; exact ⟨rfl, rfl, rfl, rfl, rfl⟩
  | cmp ra rb => cases ht; exact ⟨rfl, rfl, rfl, rfl, rfl⟩
  | je tgt => rw [exec_je] at ht; cases ht; exact ⟨rfl, rfl, rfl, rfl, rfl⟩
  | jmp tgt => cases ht; exact ⟨rfl, rfl, rfl, rfl, rfl⟩
  | ld ra rb => cases hd
  | st ra rb => cases hd

/-- An instruction with a data access touches its address, and writes at most that byte (R54, R200, R201). -/
theorem exec_of_access {i : Instr} {s t : State} {a : Nat} (hd : dataAddress i s = some a) (ht : exec i s = .next t) :
    (t.mem = s.mem ∨ ∃ v, t.mem = Memory.write s.mem a v) ∧ t.touched = (s.touch a).touched ∧
      t.cycles = (s.touch a).cycles ∧ t.localHits = (s.touch a).localHits ∧ t.ldst = (s.touch a).ldst := by
  cases i with
  | ld ra rb => cases hd; cases ht; exact ⟨.inl (s.touch_mem _), rfl, rfl, rfl, rfl⟩
  | st ra rb => cases hd; cases ht; exact ⟨.inr ⟨s.readReg rb, by simp⟩, rfl, rfl, rfl, rfl⟩
  | _ => cases hd

/-- An instruction clears no `touched` flag (R42). -/
theorem exec_keeps_warm {i : Instr} {s t : State} {a : Nat} (h : s.isTouched a = true) (ht : exec i s = .next t) :
    t.isTouched a = true := by
  cases hd : dataAddress i s with
  | none =>
    obtain ⟨-, htouched, -⟩ := exec_of_no_access hd ht
    rw [State.isTouched_congr s t htouched, h]
  | some b =>
    obtain ⟨-, htouched, -⟩ := exec_of_access hd ht
    rw [State.isTouched_congr (s.touch b) t htouched, State.isTouched_touch, h, Bool.or_true]

/-- An instruction lowers no counter (R38). -/
theorem exec_counters_le {i : Instr} {s t : State} (ht : exec i s = .next t) :
    s.cycles ≤ t.cycles ∧ s.localHits ≤ t.localHits ∧ s.ldst ≤ t.ldst := by
  cases hd : dataAddress i s with
  | none =>
    obtain ⟨-, -, hcycles, hhits, hldst⟩ := exec_of_no_access hd ht
    omega
  | some a =>
    obtain ⟨-, -, hcycles, hhits, hldst⟩ := exec_of_access hd ht
    simp [hcycles, hhits, hldst]

/-- An instruction keeps both canonical forms (R41, R42). -/
theorem exec_storage {i : Instr} {s t : State} (h : StorageInv s) (ht : exec i s = .next t) : StorageInv t := by
  obtain ⟨hmem, htouched⟩ := h
  cases hd : dataAddress i s with
  | none =>
    obtain ⟨hm, hw, -⟩ := exec_of_no_access hd ht
    exact ⟨hm ▸ hmem, hw ▸ htouched⟩
  | some a =>
    have ha := dataAddress_lt hd
    obtain ⟨hm, hw, -⟩ := exec_of_access hd ht
    refine ⟨?_, hw ▸ (s.touch_storage a ha hmem htouched).2⟩
    obtain hm | ⟨v, hm⟩ := hm
    · exact hm ▸ hmem
    · exact hm ▸ Memory.write_wf v hmem ha

/-- A fetch counted and its instruction executed keep the relations between the counters (R39): a cold access adds one address
and 50 cycles, a warm one a hit and 2. -/
theorem exec_counterInv {i : Instr} {s t : State} (h : CounterInv s) (ht : exec i s.countFetch = .next t) : CounterInv t := by
  obtain ⟨hle, hhit, hcold, hcyc⟩ := h
  obtain ⟨-, -, -, -, hinstret⟩ := exec_control ht
  rw [State.countFetch_instret] at hinstret
  cases hd : dataAddress i s.countFetch with
  | none =>
    obtain ⟨-, htouched, hcycles, hhits, hldst⟩ := exec_of_no_access hd ht
    simp only [State.countFetch_touched, State.countFetch_cycles, State.countFetch_localHits, State.countFetch_ldst,
      Config.costSimple] at htouched hcycles hhits hldst
    unfold CounterInv
    rw [htouched]
    omega
  | some a =>
    obtain ⟨-, htouched, hcycles, hhits, hldst⟩ := exec_of_access hd ht
    simp only [State.touch_touched, State.touch_cycles, State.touch_localHits, State.touch_ldst, State.isTouched_countFetch,
      State.countFetch_touched, State.countFetch_cycles, State.countFetch_localHits, State.countFetch_ldst,
      Config.costWarm, Config.costCold] at htouched hcycles hhits hldst
    unfold CounterInv
    cases hw : s.isTouched a with
    | true =>
      simp only [hw, if_true] at htouched hcycles hhits
      rw [htouched]
      omega
    | false =>
      have hlen := Touched.length_set (t := s.touched) (a := a) hw
      simp only [hw, Bool.false_eq_true, if_false] at htouched hcycles hhits
      rw [htouched]
      omega

end Sys2Proof.Machine
end

section
/-! PROOFS. What a step and an input of the host leave of the nine rows of CPU state (R21), and the statements about steps that follow: warmth,
counters, the canonical forms, `status` (R38 to R42). -/

namespace Sys2Proof.Machine

/-- The nine rows of CPU state are as before (R21). -/
structure SameCpu (s t : State) : Prop where
  regs : t.regs = s.regs
  pc : t.pc = s.pc
  eq : t.eq = s.eq
  mem : t.mem = s.mem
  touched : t.touched = s.touched
  instret : t.instret = s.instret
  cycles : t.cycles = s.cycles
  localHits : t.localHits = s.localHits
  ldst : t.ldst = s.ldst

theorem SameCpu.refl (s : State) : SameCpu s s := ⟨rfl, rfl, rfl, rfl, rfl, rfl, rfl, rfl, rfl⟩

theorem SameCpu.isTouched {s t : State} (h : SameCpu s t) (a : Nat) : t.isTouched a = s.isTouched a :=
  State.isTouched_congr s t h.touched a

theorem SameCpu.storageInv {s t : State} (h : SameCpu s t) (hs : StorageInv s) : StorageInv t := by
  obtain ⟨hmem, htouched⟩ := hs
  exact ⟨h.mem ▸ hmem, h.touched ▸ htouched⟩

theorem SameCpu.counterInv {s t : State} (h : SameCpu s t) (hs : CounterInv s) : CounterInv t := by
  unfold CounterInv
  rw [h.instret, h.cycles, h.localHits, h.ldst, h.touched]
  exact hs

theorem SameCpu.cpuAtReset {s t : State} (h : SameCpu s t) (hs : CpuAtReset s) : CpuAtReset t := by
  unfold CpuAtReset
  rw [h.regs, h.pc, h.eq, h.mem, h.touched, h.instret, h.cycles, h.localHits, h.ldst]
  exact hs

/-- A step executes an instruction or leaves the CPU state alone (R40, R131). -/
theorem step_sameCpu_or_exec {s t : State} (h : step s = .next t) :
    SameCpu s t ∨ ∃ i, exec i s.countFetch = .next t := by
  obtain ⟨-, -, rfl⟩ | ⟨-, -, p, k, -, -, rfl⟩ | ⟨-, -, p, -, -, rfl⟩ | ⟨-, p, -, -, rfl⟩ | ⟨-, p, e, i, -, -, -, hx⟩ | ⟨-, rfl⟩ :=
    step_cases h
  · exact .inl (.refl _)
  · exact .inl ⟨rfl, rfl, rfl, rfl, rfl, rfl, rfl, rfl, rfl⟩
  · exact .inl ⟨rfl, rfl, rfl, rfl, rfl, rfl, rfl, rfl, rfl⟩
  · exact .inl ⟨rfl, rfl, rfl, rfl, rfl, rfl, rfl, rfl, rfl⟩
  · exact .inr ⟨i, hx⟩
  · exact .inl (.refl _)

/-- The host changes the CPU state by reset only (R40, R235). -/
theorem hostApply_sameCpu {h : HostInput} {s t : State} (hr : h ≠ .reset) (hx : hostApply h s = .next t) : SameCpu s t := by
  obtain ⟨rfl, -⟩ | ⟨-, rfl⟩ | ⟨img, -, -, -, rfl⟩ | ⟨-, -, rfl⟩ := hostApply_cases hx
  · exact absurd rfl hr
  · exact .refl _
  · exact ⟨rfl, rfl, rfl, rfl, rfl, rfl, rfl, rfl, rfl⟩
  · exact ⟨rfl, rfl, rfl, rfl, rfl, rfl, rfl, rfl, rfl⟩

/-- Settles O24: of the steps only an instruction changes flags, and it clears none; of the host's inputs only reset does. -/
theorem warmUntilReset : Obligations.WarmUntilReset := by
  refine ⟨fun s t a ha h => ?_, fun h s t a hr ha hx => ?_, fun s t a hx => ?_⟩
  · obtain hsame | ⟨i, hx⟩ := step_sameCpu_or_exec h
    · rw [hsame.isTouched, ha]
    · exact exec_keeps_warm (s := s.countFetch) ha hx
  · rw [(hostApply_sameCpu hr hx).isTouched, ha]
  · cases hx
    rfl

/-- Settles O27: the fetch raises `instret` by one, and an instruction lowers no counter. -/
theorem countersNeverDecrease : Obligations.CountersNeverDecrease := by
  intro s t h
  obtain hsame | ⟨i, hx⟩ := step_sameCpu_or_exec h
  · exact ⟨hsame.instret.ge, hsame.cycles.ge, hsame.localHits.ge, hsame.ldst.ge⟩
  · obtain ⟨-, -, -, -, hinstret⟩ := exec_control hx
    refine ⟨?_, exec_counters_le (s := s.countFetch) hx⟩
    rw [hinstret, State.countFetch_instret]
    exact Nat.le_succ _

/-- Settles O45: an instruction keeps both canonical forms, and nothing else in a step touches them. -/
theorem stepKeepsTheStorageForm : Obligations.StepKeepsTheStorageForm := by
  intro s t hs h
  obtain hsame | ⟨i, hx⟩ := step_sameCpu_or_exec h
  · exact hsame.storageInv hs
  · exact exec_storage (s := s.countFetch) hs hx

/-- Settles O46: a fetch with its instruction keeps the relations, and nothing else in a step counts. -/
theorem stepKeepsTheCounterRelations : Obligations.StepKeepsTheCounterRelations := by
  intro s t hs h
  obtain hsame | ⟨i, hx⟩ := step_sameCpu_or_exec h
  · exact hsame.counterInv hs
  · exact exec_counterInv hs hx

/-! ### `status` (R40) -/

/-- A step changes `status` by the start or by the end of the run. -/
theorem step_status {s t : State} (h : step s = .next t) (hne : t.status ≠ s.status) :
    (s.status = .idle ∧ s.startPending = true ∧ (t.status = .running ∨ t.status = .rejected)) ∨
    (s.status = .running ∧ s.len ≤ s.pc.toNat ∧ t.status = .halted) := by
  obtain ⟨-, -, rfl⟩ | ⟨hs, hp, p, k, -, -, rfl⟩ | ⟨hs, hp, p, -, -, rfl⟩ | ⟨hs, p, hr, hpc, rfl⟩ | ⟨-, p, e, i, -, -, -, hx⟩ |
    ⟨-, rfl⟩ := step_cases h
  · exact absurd rfl hne
  · exact .inl ⟨hs, hp, .inr rfl⟩
  · exact .inl ⟨hs, hp, .inl rfl⟩
  · refine .inr ⟨hs, ?_, rfl⟩
    rwa [State.len, image_of_resolved hr]
  · obtain ⟨-, hstatus, -⟩ := exec_control hx
    exact absurd hstatus hne
  · exact absurd rfl hne

/-- Of the host's inputs only reset changes `status`. -/
theorem hostApply_status {h : HostInput} {s t : State} (hx : hostApply h s = .next t) (hne : t.status ≠ s.status) :
    h = .reset ∧ t.status = .idle := by
  obtain ⟨rfl, rfl⟩ | ⟨-, rfl⟩ | ⟨img, -, -, -, rfl⟩ | ⟨-, -, rfl⟩ := hostApply_cases hx
  · exact ⟨rfl, rfl⟩
  all_goals exact absurd rfl hne

/-- Outside `Idle` the host has no effect but by reset (R65, R235). -/
theorem hostApply_of_not_idle {h : HostInput} {s : State} (hs : s.status ≠ .idle) (hr : h ≠ .reset) :
    hostApply h s = .next s := by
  have hl : s.loadable = false := by simp [State.loadable, hs]
  cases h with
  | reset => exact absurd rfl hr
  | load img => simp [hostApply, hostLoad, hl]
  | start => simp [hostApply, hostStart, hl]

theorem step_of_stopped {s : State} (hs : s.status = .halted ∨ s.status = .rejected) : step s = .next s := by
  obtain hs | hs := hs <;> simp [step, hs]

/-- Settles O37: the table's rows are the changes a step makes and the reset; nothing else the host does reaches a machine
outside `Idle`. -/
theorem statusChangesByTheTable : Obligations.StatusChangesByTheTable := by
  refine ⟨fun e s t h hne => ?_, fun e s hs he => ?_, fun s => rfl, fun e s t hs h => ?_⟩
  · cases e with
    | clock =>
      obtain ⟨hs, hp, ht⟩ | ⟨hs, hpc, ht⟩ := step_status h hne
      · exact .inr (.inl ⟨rfl, hs, hp, ht⟩)
      · exact .inr (.inr ⟨rfl, hs, hpc, ht⟩)
    | host input =>
      obtain ⟨rfl, ht⟩ := hostApply_status h hne
      exact .inl ⟨rfl, ht⟩
  · cases e with
    | clock => exact step_of_stopped hs
    | host input =>
      have hni : s.status ≠ .idle := by obtain hs | hs := hs <;> simp [hs]
      exact hostApply_of_not_idle hni (fun hr => he (hr ▸ rfl))
  · cases e with
    | clock => exact .inl rfl
    | host input =>
      by_cases hr : input = .reset
      · exact .inr (.inl (hr ▸ rfl))
      · have hx : react (.host input) s = .next s := hostApply_of_not_idle (by simp [hs]) hr
        rw [hx] at h
        cases h
        exact .inr (.inr rfl)

/-- Settles O36: validation finds nothing, so the start is taken and the resolver's one pass made. -/
theorem validImageIsResolvedAndRuns : Obligations.ValidImageIsResolvedAndRuns := by
  intro s p hs hp hu hv
  rw [step_idle_start hs hp hu, startRun_valid ((firstInvalid_eq_none p.entries).mpr hv)]
  rfl

end Sys2Proof.Machine
end

section
/-! PROOFS. The invariant: a resolved word decodes to the resolved instruction, every step and every input of the host keeps `Inv`, and what
follows for the reachable states (R29, R39, R88, R183). -/

namespace Sys2Proof.Machine

/-! ### A valid image resolves to a valid image (R88, R183) -/

/-- A new target in a word of format J leaves its opcode and gives it that target (R82, R180). -/
theorem decode_withTarget {mk : Index → Instr} {n : Nat} {w : IWord} (hop : (opField w).toNat = n)
    (hn : ∀ v, decodeOp n v = decodeJ mk v) (hmbz : mbzJ w = 0) (t : Index) : decode (withTarget w t) = .ok (mk t) := by
  obtain ⟨hop', hmbz', htgt'⟩ := withTarget_fields w t
  rw [decode, hop', hop, hn, decodeJ, hmbz', if_pos hmbz, htgt']

/-- The resolver on a word is the resolver on its instruction (R180, R191). -/
theorem decode_resolveWord (img : Image) {w : IWord} {i : Instr} (h : decode w = .ok i) :
    decode (resolveWord img w) = .ok (resolveInstr img ⟨i⟩).instr := by
  have hb := isBranchWord_of_decode h
  cases i with
  | je l =>
    obtain ⟨hop, hmbz, htgt⟩ := decode_ok h
    rw [resolveWord_of_branch hb, htgt, decode_withTarget hop (fun _ => rfl) hmbz]
    rfl
  | jmp l =>
    obtain ⟨hop, hmbz, htgt⟩ := decode_ok h
    rw [resolveWord_of_branch hb, htgt, decode_withTarget hop (fun _ => rfl) hmbz]
    rfl
  | mov rd imm => rw [resolveWord_of_other hb, h]; rfl
  | add ra rb => rw [resolveWord_of_other hb, h]; rfl
  | addi rd imm => rw [resolveWord_of_other hb, h]; rfl
  | cmp ra rb => rw [resolveWord_of_other hb, h]; rfl
  | ld ra rb => rw [resolveWord_of_other hb, h]; rfl
  | st ra rb => rw [resolveWord_of_other hb, h]; rfl

theorem resolvedOk_iff (img : Image) :
    Image.resolvedOk img = true ↔ ∀ e ∈ img, ∃ i, decode e.word = .ok i ∧ i.wellFormed img.length = true := by
  unfold Image.resolvedOk
  rw [List.all_eq_true]
  refine forall₂_congr fun e _ => ?_
  cases decode e.word <;> simp

/-- R88, R183: an image that validation passes resolves to words that decode, their targets in range. -/
theorem resolve_resolvedOk {p : UnresolvedProgram} (h : firstInvalid p.entries = none) :
    Image.resolvedOk (resolve p).entries = true := by
  rw [resolvedOk_iff, resolve_length]
  intro e he
  obtain ⟨f, hf, rfl⟩ := List.mem_map.mp he
  obtain ⟨i, hi⟩ := (isInvalid_eq_false f.word).mp ((firstInvalid_eq_none _).mp h f hf)
  exact ⟨_, decode_resolveWord p.entries hi, (resolveInstr p.entries ⟨i⟩).ok⟩

/-! ### Executing in range leads into range (R29, R183) -/

theorem nextPc_le {i : Instr} {s : State} {len : Nat} (hi : i.wellFormed len = true) (hpc : s.pc.toNat < len)
    (hlen : len ≤ 65535) : (nextPc i s).toNat ≤ len := by
  have hsucc : (s.pc + 1#16).toNat ≤ len := by
    rw [BitVec.toNat_add, BitVec.toNat_ofNat]
    omega
  cases i with
  | jmp tgt => exact of_decide_eq_true hi
  | je tgt =>
    have htgt : tgt.toNat ≤ len := of_decide_eq_true hi
    cases h : s.eq <;> simpa [nextPc, h]
  | _ => exact hsucc

/-! ### The invariant of each phase -/

theorem phaseInv_idle {s : State} (h : s.status = .idle) :
    PhaseInv s ↔ CpuAtReset s ∧ Program.isResolved s.program = false := by
  simp [PhaseInv, h]

theorem phaseInv_running {s : State} (h : s.status = .running) :
    PhaseInv s ↔ Program.isResolved s.program = true ∧ Image.resolvedOk s.image = true ∧ s.pc.toNat ≤ s.len ∧
      s.startPending = false := by
  simp [PhaseInv, h]

theorem phaseInv_halted {s : State} (h : s.status = .halted) :
    PhaseInv s ↔ Program.isResolved s.program = true ∧ Image.resolvedOk s.image = true ∧ s.pc.toNat = s.len ∧
      s.startPending = false := by
  simp [PhaseInv, h]

theorem phaseInv_rejected {s : State} (h : s.status = .rejected) :
    PhaseInv s ↔ CpuAtReset s ∧ Program.isResolved s.program = false ∧ firstInvalid s.image = some s.rejIndex ∧
      s.startPending = false := by
  simp [PhaseInv, h]

/-- The resolver keeps the image's length, and no other step writes the image. -/
theorem step_len {s t : State} (h : step s = .next t) : t.len = s.len := by
  obtain ⟨-, -, rfl⟩ | ⟨-, -, p, k, -, -, rfl⟩ | ⟨-, -, p, hu, -, rfl⟩ | ⟨-, p, -, -, rfl⟩ | ⟨-, p, e, i, -, -, -, hx⟩ | ⟨-, rfl⟩ :=
    step_cases h
  · rfl
  · rfl
  · rw [State.len, State.len, image_of_unresolved hu, image_of_resolved rfl, resolve_length]
  · rfl
  · obtain ⟨hprogram, -⟩ := exec_control hx
    rw [State.len, State.image, hprogram]
    rfl
  · rfl

/-- An executed instruction keeps the running phase's part of the invariant. -/
theorem exec_phaseInv {i : Instr} {e : Entry} {p : ResolvedProgram} {s t : State} (hlen : s.len ≤ 65535) (hphase : PhaseInv s)
    (hs : s.status = .running) (hr : s.program = .resolved p) (he : p.entries[s.pc.toNat]? = some e)
    (hd : decode e.word = .ok i) (hx : exec i s.countFetch = .next t) : PhaseInv t := by
  obtain ⟨hres, hok, -, hstart⟩ := (phaseInv_running hs).mp hphase
  obtain ⟨hprogram, hstatus, -, hpending, -⟩ := exec_control hx
  have himage : t.image = s.image := congrArg Program.entries hprogram
  have hpc : t.pc.toNat ≤ s.len := by
    rw [← image_of_resolved hr] at he
    obtain ⟨hlt, -⟩ := List.getElem?_eq_some_iff.mp he
    obtain ⟨j, hj, hwf⟩ := (resolvedOk_iff s.image).mp hok e (List.mem_of_getElem? he)
    obtain rfl : j = i := by simpa [hj] using hd
    rw [exec_pc hx]
    exact nextPc_le hwf hlt hlen
  refine (phaseInv_running (hstatus.trans hs)).mpr ⟨?_, ?_, ?_, hpending.trans hstart⟩
  · rw [hprogram]; exact hres
  · rw [himage]; exact hok
  · rw [State.len, himage]; exact hpc

/-- R40, phase by phase: what each kind of step establishes. -/
theorem step_phaseInv {s t : State} (hlen : s.len ≤ 65535) (hphase : PhaseInv s) (h : step s = .next t) : PhaseInv t := by
  obtain ⟨-, -, rfl⟩ | ⟨hs, -, p, k, hu, hk, rfl⟩ | ⟨hs, -, p, hu, hv, rfl⟩ | ⟨hs, p, hr, hpc, rfl⟩ | ⟨hs, p, e, i, hr, he, hd, hx⟩ |
    ⟨-, rfl⟩ := step_cases h
  · exact hphase
  · obtain ⟨hcpu, hres⟩ := (phaseInv_idle hs).mp hphase
    refine (phaseInv_rejected rfl).mpr ⟨hcpu, hres, ?_, rfl⟩
    simpa [image_of_unresolved hu] using hk
  · obtain ⟨⟨-, hpc, -⟩, -⟩ := (phaseInv_idle hs).mp hphase
    refine (phaseInv_running rfl).mpr ⟨rfl, resolve_resolvedOk hv, ?_, rfl⟩
    simp [hpc, State.reset]
  · obtain ⟨hres, hok, hle, hstart⟩ := (phaseInv_running hs).mp hphase
    rw [← image_of_resolved hr] at hpc
    exact (phaseInv_halted rfl).mpr ⟨hres, hok, le_antisymm hle hpc, hstart⟩
  · exact exec_phaseInv hlen hphase hs hr he hd hx
  · exact hphase

/-- Settles O47: the storage form and the counter relations are kept by every step (O45, O46), the length by `step_len`, and the
phase's part by `step_phaseInv`. -/
theorem stepKeepsTheInvariant : Obligations.StepKeepsTheInvariant := by
  rintro s t ⟨hstorage, hcounters, hlen, hphase⟩ h
  have hlen' := (lengthOk_eq_true s.image).mp hlen
  refine ⟨stepKeepsTheStorageForm s t hstorage h, stepKeepsTheCounterRelations s t hcounters h, ?_, step_phaseInv hlen' hphase h⟩
  rw [lengthOk_eq_true]
  exact (step_len h).trans_le hlen'

/-! ### The host's inputs -/

theorem inv_reset : Inv State.reset :=
  ⟨reset_storage, ⟨le_rfl, le_rfl, rfl, rfl⟩, rfl, ⟨rfl, rfl, rfl, rfl, rfl, rfl, rfl, rfl, rfl⟩, rfl⟩

/-- In `Idle` the invariant asks nothing of the program but its form and length (R6, R191). -/
theorem inv_of_idle {s t : State} (h : Inv s) (hs : s.status = .idle) (hsame : SameCpu s t) (ht : t.status = .idle)
    (hlen : Image.lengthOk t.image = true) (hform : Program.isResolved t.program = false) : Inv t := by
  obtain ⟨hstorage, hcounters, -, hphase⟩ := h
  obtain ⟨hcpu, -⟩ := (phaseInv_idle hs).mp hphase
  exact ⟨hsame.storageInv hstorage, hsame.counterInv hcounters, hlen, (phaseInv_idle ht).mpr ⟨hsame.cpuAtReset hcpu, hform⟩⟩

/-- Settles O48: reset establishes the invariant; a load and the start act on an `Idle` machine only, and leave its CPU state. -/
theorem hostInputsKeepTheInvariant : Obligations.HostInputsKeepTheInvariant := by
  intro h s t hinv hx
  obtain ⟨-, rfl⟩ | ⟨-, rfl⟩ | ⟨img, rfl, hl, hk, rfl⟩ | ⟨rfl, hl, rfl⟩ := hostApply_cases hx
  · exact inv_reset
  · exact hinv
  · obtain ⟨hs, -⟩ := (loadable_eq_true s).mp hl
    exact inv_of_idle hinv hs (hostApply_sameCpu (by simp) hx) hs hk rfl
  · obtain ⟨hs, -⟩ := (loadable_eq_true s).mp hl
    obtain ⟨-, -, hlen, hphase⟩ := id hinv
    exact inv_of_idle hinv hs (hostApply_sameCpu (by simp) hx) hs hlen ((phaseInv_idle hs).mp hphase).2

/-! ### The reachable states -/

theorem inv_of_reachable {s : State} (h : Reachable s) : Inv s := by
  induction h with
  | reset => exact inv_reset
  | event e s t _ hx ih =>
    cases e with
    | clock => exact stepKeepsTheInvariant s t ih hx
    | host input => exact hostInputsKeepTheInvariant input s t ih hx

theorem CpuAtReset.pc_le_len {s : State} (h : CpuAtReset s) : s.pc.toNat ≤ s.len := by
  obtain ⟨-, hpc, -⟩ := h
  simp [hpc, State.reset]

/-- Settles O50: `pc` is 0 before a run and after a rejection, and in a run the invariant bounds it. -/
theorem pcStaysInRange : Obligations.PcStaysInRange := by
  intro s h
  obtain ⟨-, -, -, hphase⟩ := inv_of_reachable h
  cases hs : s.status with
  | idle =>
    obtain ⟨hcpu, -⟩ := (phaseInv_idle hs).mp hphase
    exact ⟨hcpu.pc_le_len, by simp⟩
  | running =>
    obtain ⟨-, -, hpc, -⟩ := (phaseInv_running hs).mp hphase
    exact ⟨hpc, by simp⟩
  | halted =>
    obtain ⟨-, -, hpc, -⟩ := (phaseInv_halted hs).mp hphase
    exact ⟨hpc.le, fun _ => hpc⟩
  | rejected =>
    obtain ⟨hcpu, -⟩ := (phaseInv_rejected hs).mp hphase
    exact ⟨hcpu.pc_le_len, by simp⟩

/-! ### The `touched` list is the set of warm addresses (R39, R42) -/

theorem Touched.flag_eq_true (t : List Nat) (a : Nat) : Touched.flag t a = true ↔ a ∈ t := by
  induction t with
  | nil => simp [Touched.flag]
  | cons b rest ih =>
    rw [Touched.flag, List.mem_cons, ← ih, eq_comm (a := a)]
    by_cases h : b = a <;> simp [h]

theorem Touched.lt_of_mem {lo a : Nat} {t : List Nat} (w : Touched.wfFrom lo t = true) (h : a ∈ t) : a < Config.memSize := by
  induction t generalizing lo with
  | nil => cases h
  | cons b rest ih =>
    simp only [Touched.wfFrom, Bool.and_eq_true, decide_eq_true_eq] at w
    obtain ⟨⟨-, hb⟩, hrest⟩ := w
    obtain rfl | h := List.mem_cons.mp h
    · exact hb
    · exact ih hrest h

theorem Touched.nodup {lo : Nat} {t : List Nat} (w : Touched.wfFrom lo t = true) : t.Nodup := by
  induction t generalizing lo with
  | nil => exact List.nodup_nil
  | cons b rest ih =>
    simp only [Touched.wfFrom, Bool.and_eq_true, decide_eq_true_eq] at w
    obtain ⟨-, hrest⟩ := w
    have hb : b ∉ rest := by
      rw [← Touched.flag_eq_true, Touched.flag_below hrest (Nat.lt_succ_self b)]
      exact Bool.false_ne_true
    exact List.nodup_cons.mpr ⟨hb, ih hrest⟩

/-- The flags counted address by address are as many as the list is long. -/
theorem Touched.length_eq_count {t : List Nat} (w : Touched.wf t = true) :
    t.length = ((List.range 256).filter fun a => Touched.flag t a).length := by
  refine ((List.perm_ext_iff_of_nodup (Touched.nodup w) (List.nodup_range.filter _)).mpr fun a => ?_).length_eq
  rw [List.mem_filter, List.mem_range, Touched.flag_eq_true]
  exact ⟨fun h => ⟨Touched.lt_of_mem w h, h⟩, And.right⟩

/-- Settles O51: the invariant's relations, with the length of the canonical list read as the number of warm addresses. -/
theorem counterRelations : Obligations.CounterRelations := by
  intro s h
  obtain ⟨⟨-, htouched⟩, ⟨hle, hhit, hcold, hcyc⟩, -⟩ := inv_of_reachable h
  have hbound : s.touched.length ≤ 256 := Touched.length_le_from htouched (Nat.zero_le _)
  exact ⟨hle, hhit, hcold.trans (Touched.length_eq_count htouched), hcold.trans_le hbound, hcyc⟩

end Sys2Proof.Machine
end

section
/-! PROOFS. Data memory and the instruction store: who writes the instruction store, a load after a store, and that the `touched` flags
affect cost only (R56, R58, R61, R64). -/

namespace Sys2Proof.Machine

/-! ### No instruction writes the instruction store (R64) -/

theorem exec_keeps_program {i : Instr} {s t : State} (hx : exec i s = .next t) : t.program = s.program := by
  obtain ⟨hprogram, -⟩ := exec_control hx
  exact hprogram

/-- A step keeps the instruction store, or is the resolver's step out of `Idle` (R64). -/
theorem step_program {s t : State} (h : step s = .next t) :
    t.program = s.program ∨
    (s.status = .idle ∧ ∃ p, s.program = .unresolved p ∧ t.program = .resolved (resolve p)) := by
  obtain ⟨-, -, rfl⟩ | ⟨-, -, p, k, -, -, rfl⟩ | ⟨hs, -, p, hu, -, rfl⟩ | ⟨-, p, -, -, rfl⟩ | ⟨-, p, e, i, -, -, -, hx⟩ | ⟨-, rfl⟩ :=
    step_cases h
  · exact .inl rfl
  · exact .inl rfl
  · exact .inr ⟨hs, p, hu, rfl⟩
  · exact .inl rfl
  · exact .inl (exec_keeps_program (s := s.countFetch) hx)
  · exact .inl rfl

/-- Settles O26: no instruction writes the store, and the one step that does leaves `Idle` with the resolved program. -/
theorem storesNeverChangeInstructions : Obligations.StoresNeverChangeInstructions := by
  refine ⟨fun i s t => exec_keeps_program, fun s t hs h => ?_, fun s t h hne => ?_⟩
  · obtain hsame | ⟨hi, -⟩ := step_program h
    · exact hsame
    · exact absurd hi hs
  · obtain hsame | hresolved := step_program h
    · exact absurd hsame hne
    · exact hresolved

/-! ### The data and the cost of one access (R54, R200, R201) -/

theorem State.effAddr_congr {s t : State} {q r : Reg} (h : t.readReg q = s.readReg r) : t.effAddr q = s.effAddr r :=
  congrArg u8 h

/-- LD puts the addressed byte in its destination, whether the address is cold or warm (R200). -/
theorem exec_ld_dest {ra rb : Reg} {s t : State} (ht : exec (.ld ra rb) s = .next t) :
    t.readReg ra = s.memRead (s.effAddr rb) := by
  cases ht
  simp

/-- ST leaves the data register's byte at its address, whether the address is cold or warm (R201). -/
theorem exec_st_memRead {ra rb : Reg} {s t : State} (hm : Memory.wf s.mem = true) (ht : exec (.st ra rb) s = .next t) :
    t.memRead (s.effAddr ra) = s.readReg rb := by
  cases ht
  rw [State.memRead_advance, State.memRead_memWrite_same]
  rwa [State.touch_mem]

/-- ST writes no register (R201). -/
theorem exec_st_readReg {ra rb : Reg} {s t : State} (ht : exec (.st ra rb) s = .next t) (r : Reg) :
    t.readReg r = s.readReg r := by
  cases ht
  simp

/-- The address of an executed access is warm (R54). -/
theorem exec_warms {i : Instr} {s t : State} {a : Nat} (hd : dataAddress i s = some a) (ht : exec i s = .next t) :
    t.isTouched a = true := by
  obtain ⟨-, htouched, -⟩ := exec_of_access hd ht
  rw [State.isTouched_congr _ _ htouched, State.isTouched_touch, decide_eq_true rfl, Bool.true_or]

/-- An access to a warm address costs 2 cycles and is a hit (R54, R56). -/
theorem exec_warm_cost {i : Instr} {s t : State} {a : Nat} (hd : dataAddress i s = some a) (hw : s.isTouched a = true)
    (ht : exec i s = .next t) : t.cycles = s.cycles + 2 ∧ t.localHits = s.localHits + 1 := by
  obtain ⟨-, -, hcycles, hhits, -⟩ := exec_of_access hd ht
  simp [hcycles, hhits, hw, Config.costWarm]

/-- Settles O20: the store leaves its byte at its address and the address warm, and keeps the register that the load takes its
address from. -/
theorem storeThenLoad : Obligations.StoreThenLoad := by
  intro ra rb rc rd s hm hsame
  obtain ⟨t, ht, -⟩ := exec_total (.st ra rb) s
  obtain ⟨u, hu, -⟩ := exec_total (.ld rc rd) t
  have haddr : t.effAddr rd = s.effAddr ra := State.effAddr_congr ((exec_st_readReg ht rd).trans hsame)
  have hwarm : t.isTouched (t.effAddr rd) = true := by
    rw [haddr]
    exact exec_warms rfl ht
  refine ⟨t, u, ht, hu, ?_, exec_warm_cost rfl hwarm hu⟩
  calc u.readReg rc = t.memRead (t.effAddr rd) := exec_ld_dest hu
    _ = t.memRead (s.effAddr ra) := by rw [haddr]
    _ = s.readReg rb := exec_st_memRead hm ht

/-! ### A step without its cost

`State.withoutCost` forgets the flags and the counters. A step, seen through it, is a function of the state seen through it
(`step_withoutCost`), so two states that agree but for the cost step alike (R58). -/

/-- The state with the `touched` flags and the four counters forgotten. -/
def State.withoutCost (s : State) : State := { s with touched := [], instret := 0, cycles := 0, localHits := 0, ldst := 0 }

theorem agreeButCost_iff (s t : State) : AgreeButCost s t ↔ t.withoutCost = s.withoutCost := by
  simp [AgreeButCost, State.withoutCost]

/-- An outcome with the cost of its next state forgotten. -/
def outcomeWithoutCost (o : Host.Outcome State Fault Refusal) : Host.Outcome State Fault Refusal :=
  match o with
  | .next t => .next t.withoutCost
  | .fault f => .fault f
  | .refused r => .refused r

theorem outcomeWithoutCost_eq_next {o : Host.Outcome State Fault Refusal} {t : State}
    (h : outcomeWithoutCost o = .next t.withoutCost) : ∃ u, o = .next u ∧ AgreeButCost t u := by
  cases o with
  | next u => exact ⟨u, rfl, (agreeButCost_iff t u).mpr (by simpa [outcomeWithoutCost] using h)⟩
  | fault f => cases h
  | refused r => cases h

theorem outcomeWithoutCost_eq_fault {o : Host.Outcome State Fault Refusal} {f : Fault}
    (h : outcomeWithoutCost o = .fault f) : o = .fault f := by
  cases o with
  | next u => cases h
  | fault g => exact h
  | refused r => cases h

/-- `Touch` is cost and nothing else (R54). -/
theorem withoutCost_touch (s : State) (a : Nat) : (s.touch a).withoutCost = s.withoutCost := by
  simp [State.withoutCost]

theorem exec_ld_withoutCost (ra rb : Reg) (s : State) : outcomeWithoutCost (exec (.ld ra rb) s) =
    .next (s.withoutCost.writeReg ra (s.memRead (s.effAddr rb))).advance := by
  rw [← withoutCost_touch s (s.effAddr rb)]
  rfl

theorem exec_st_withoutCost (ra rb : Reg) (s : State) : outcomeWithoutCost (exec (.st ra rb) s) =
    .next (s.withoutCost.memWrite (s.effAddr ra) (s.readReg rb)).advance := by
  rw [← withoutCost_touch s (s.effAddr ra)]
  rfl

/-- No instruction reads the flags or the counters but to set them (R58). -/
theorem exec_withoutCost (i : Instr) (s : State) :
    outcomeWithoutCost (exec i s.withoutCost) = outcomeWithoutCost (exec i s) := by
  cases i with
  | mov rd imm => rfl
  | add ra rb => rfl
  | addi rd imm => rfl
  | cmp ra rb => rfl
  | je tgt => rw [exec_je, exec_je]; rfl
  | jmp tgt => rfl
  | ld ra rb => rw [exec_ld_withoutCost, exec_ld_withoutCost]; rfl
  | st ra rb => rw [exec_st_withoutCost, exec_st_withoutCost]; rfl

theorem startRun_withoutCost (p : UnresolvedProgram) (s : State) :
    (startRun p s.withoutCost).withoutCost = (startRun p s).withoutCost := by
  cases h : firstInvalid p.entries with
  | none => rw [startRun_valid h, startRun_valid h]; rfl
  | some k => rw [startRun_invalid h, startRun_invalid h]; rfl

theorem idleStep_withoutCost (s : State) : outcomeWithoutCost (idleStep s.withoutCost) = outcomeWithoutCost (idleStep s) := by
  have hp' : s.withoutCost.startPending = s.startPending := rfl
  have hu' : s.withoutCost.program = s.program := rfl
  unfold idleStep
  rw [hp', hu']
  split
  · cases s.program with
    | unresolved p => exact congrArg Host.Outcome.next (startRun_withoutCost p s)
    | resolved p => rfl
  · rfl

theorem runStep_withoutCost (p : ResolvedProgram) (s : State) :
    outcomeWithoutCost (runStep p s.withoutCost) = outcomeWithoutCost (runStep p s) := by
  have hpc : s.withoutCost.pc = s.pc := rfl
  unfold runStep
  rw [hpc]
  cases fetchWord p s.pc with
  | none => rfl
  | some w =>
    cases hd : decode w with
    | error r => simp only [hd]
    | ok i =>
      simp only [hd]
      calc outcomeWithoutCost (exec i s.withoutCost.countFetch)
        _ = outcomeWithoutCost (exec i s.countFetch.withoutCost) := (exec_withoutCost i s.withoutCost.countFetch).symm
        _ = outcomeWithoutCost (exec i s.countFetch) := exec_withoutCost i s.countFetch

/-- No step reads the flags or the counters but to set them (R58). -/
theorem step_withoutCost (s : State) : outcomeWithoutCost (step s.withoutCost) = outcomeWithoutCost (step s) := by
  have hstatus : s.withoutCost.status = s.status := rfl
  have hprogram : s.withoutCost.program = s.program := rfl
  unfold step
  rw [hstatus, hprogram]
  cases s.status with
  | idle => exact idleStep_withoutCost s
  | running =>
    cases s.program with
    | unresolved p => rfl
    | resolved p => exact runStep_withoutCost p s
  | halted => rfl
  | rejected => rfl

/-- Settles O25: both states step as the one state that they become without their cost; LD and ST have their data from the
registers and memory. -/
theorem touchedAffectsCostOnly : Obligations.TouchedAffectsCostOnly := by
  refine ⟨fun s s' h => ?_, fun ra rb s => ?_, fun ra rb s hm => ?_⟩
  · have hstep : outcomeWithoutCost (step s') = outcomeWithoutCost (step s) := by
      rw [← step_withoutCost s', (agreeButCost_iff s s').mp h, step_withoutCost]
    refine ⟨fun t ht => outcomeWithoutCost_eq_next ?_, fun f hf => outcomeWithoutCost_eq_fault ?_⟩
    · rw [hstep, ht]; rfl
    · rw [hstep, hf]; rfl
  · obtain ⟨t, ht, -⟩ := exec_total (.ld ra rb) s
    exact ⟨t, ht, exec_ld_dest ht⟩
  · obtain ⟨t, ht, -⟩ := exec_total (.st ra rb) s
    exact ⟨t, ht, exec_st_memRead hm ht⟩

end Sys2Proof.Machine
end

section
/-! PROOFS. The word: the encoder and the decoder are inverse to each other, the opcode map says what the decoder says, which words are
Invalid, and the record view (R80 to R92, R121). -/

namespace Sys2Proof

/-! ### Decoding an encoded instruction (R82, R85) -/

theorem decode_encodeRI {mk : Reg → Byte → Instr} {op : BitVec 4} (hop : ∀ w, decodeOp op.toNat w = decodeRI mk w) (rd : Reg)
    (imm : Byte) : decode (encodeRI op.toNat rd imm) = .ok (mk rd imm) := by
  obtain ⟨hfield, -⟩ := encodeRI_fields op rd imm
  rw [decode, hfield, hop, decodeRI_encodeRI]

theorem decode_encodeRR {mk : Reg → Reg → Instr} {op : BitVec 4} (hop : ∀ w, decodeOp op.toNat w = decodeRR mk w) (ra rb : Reg) :
    decode (encodeRR op.toNat ra rb) = .ok (mk ra rb) := by
  obtain ⟨hfield, -⟩ := encodeRR_fields op ra rb
  rw [decode, hfield, hop, decodeRR_encodeRR]

theorem decode_encodeJ {mk : Index → Instr} {op : BitVec 4} (hop : ∀ w, decodeOp op.toNat w = decodeJ mk w) (tgt : Index) :
    decode (encodeJ op.toNat tgt) = .ok (mk tgt) := by
  obtain ⟨hfield, -⟩ := encodeJ_fields op tgt
  rw [decode, hfield, hop, decodeJ_encodeJ]

/-- Settles O2: an encoded word's opcode number picks its own format and constructor, and the fields are the operands. -/
theorem decodeOfEncode : Obligations.DecodeOfEncode := by
  intro i
  cases i with
  | mov rd imm => exact decode_encodeRI (op := 0x0#4) (fun _ => rfl) rd imm
  | add ra rb => exact decode_encodeRR (op := 0x1#4) (fun _ => rfl) ra rb
  | addi rd imm => exact decode_encodeRI (op := 0x2#4) (fun _ => rfl) rd imm
  | cmp ra rb => exact decode_encodeRR (op := 0x3#4) (fun _ => rfl) ra rb
  | je tgt => exact decode_encodeJ (op := 0x4#4) (fun _ => rfl) tgt
  | jmp tgt => exact decode_encodeJ (op := 0x5#4) (fun _ => rfl) tgt
  | ld ra rb => exact decode_encodeRR (op := 0x6#4) (fun _ => rfl) ra rb
  | st ra rb => exact decode_encodeRR (op := 0x7#4) (fun _ => rfl) ra rb

/-! ### Encoding a decoded word (R87, D3) -/

theorem encodeRI_of_fields {w : IWord} {n : Nat} {rd : Reg} {imm : Byte} (hop : (opField w).toNat = n) (hmbz : mbzRI w = 0)
    (hrd : (raField w).toNat = rd.val) (himm : immField w = imm) : encodeRI n rd imm = w := by
  have hmbz' : (mbzRI w).toNat = 0 := by rw [hmbz]; rfl
  rw [opField_toNat] at hop
  rw [raField_toNat] at hrd
  rw [mbzRI_toNat] at hmbz'
  apply BitVec.eq_of_toNat_eq
  rw [encodeRI_toNat _ _ _ (by omega), ← himm, immField_toNat]
  omega

theorem encodeRR_of_fields {w : IWord} {n : Nat} {ra rb : Reg} (hop : (opField w).toNat = n) (hmbz : mbzRR w = 0)
    (hra : (raField w).toNat = ra.val) (hrb : (rbField w).toNat = rb.val) : encodeRR n ra rb = w := by
  have hmbz' : (mbzRR w).toNat = 0 := by rw [hmbz]; rfl
  rw [opField_toNat] at hop
  rw [raField_toNat] at hra
  rw [rbField_toNat] at hrb
  rw [mbzRR_toNat] at hmbz'
  apply BitVec.eq_of_toNat_eq
  rw [encodeRR_toNat _ _ _ (by omega)]
  omega

theorem encodeJ_of_fields {w : IWord} {n : Nat} {tgt : Index} (hop : (opField w).toNat = n) (hmbz : mbzJ w = 0)
    (htgt : tgtField w = tgt) : encodeJ n tgt = w := by
  have hmbz' : (mbzJ w).toNat = 0 := by rw [hmbz]; rfl
  rw [opField_toNat] at hop
  rw [mbzJ_toNat] at hmbz'
  apply BitVec.eq_of_toNat_eq
  rw [encodeJ_toNat _ _ (by omega), ← htgt, tgtField_toNat]
  omega

/-- Settles O3: the opcode, the operands' fields and the must-be-zero bits are all the bits of a word. -/
theorem encodeOfDecode : Obligations.EncodeOfDecode := by
  intro w i h
  obtain ⟨hop, hfields⟩ := decode_ok h
  cases i with
  | mov rd imm => obtain ⟨hmbz, hrd, himm⟩ := hfields; exact encodeRI_of_fields hop hmbz hrd himm
  | add ra rb => obtain ⟨hmbz, hra, hrb⟩ := hfields; exact encodeRR_of_fields hop hmbz hra hrb
  | addi rd imm => obtain ⟨hmbz, hrd, himm⟩ := hfields; exact encodeRI_of_fields hop hmbz hrd himm
  | cmp ra rb => obtain ⟨hmbz, hra, hrb⟩ := hfields; exact encodeRR_of_fields hop hmbz hra hrb
  | je tgt => obtain ⟨hmbz, htgt⟩ := hfields; exact encodeJ_of_fields hop hmbz htgt
  | jmp tgt => obtain ⟨hmbz, htgt⟩ := hfields; exact encodeJ_of_fields hop hmbz htgt
  | ld ra rb => obtain ⟨hmbz, hra, hrb⟩ := hfields; exact encodeRR_of_fields hop hmbz hra hrb
  | st ra rb => obtain ⟨hmbz, hra, hrb⟩ := hfields; exact encodeRR_of_fields hop hmbz hra hrb

/-! ### The opcode map (R85) -/

/-- The word of an instruction is selected by the instruction's own row, one of the eight (R85). -/
theorem row_selects_encode (i : Instr) : i.row ∈ opcodeRows ∧ i.row.selects (encode i) = true := by
  cases i with
  | mov rd imm => exact Laws.Encoding.mov rd imm
  | add ra rb => exact Laws.Encoding.add ra rb
  | addi rd imm => exact Laws.Encoding.addi rd imm
  | cmp ra rb => exact Laws.Encoding.cmp ra rb
  | je tgt => exact Laws.Encoding.je tgt
  | jmp tgt => exact Laws.Encoding.jmp tgt
  | ld ra rb => exact Laws.Encoding.ld ra rb
  | st ra rb => exact Laws.Encoding.st ra rb

theorem exists_reg {f : BitVec 3} (h : f.toNat ≤ 5) : ∃ r : Reg, regOf f = some r :=
  ⟨⟨f.toNat, by omega⟩, (regOf_eq_some _ _).mpr rfl⟩

theorem decode_of_selects_RI {m : String} {op : BitVec 4} {mk : Reg → Byte → Instr} {w : IWord}
    (hop : ∀ v, decodeOp op.toNat v = decodeRI mk v)
    (hs : (OpcodeRow.mk m (op.setWidth 32 <<< 28) 0xF1FFFF00#32).selects w = true) (ha : (raField w).toNat ≤ 5) :
    ∃ rd imm, decode w = .ok (mk rd imm) := by
  obtain ⟨hfield, hmbz⟩ := (selects_RI w op).mp (beq_iff_eq.mp hs)
  obtain ⟨rd, hrd⟩ := exists_reg ha
  exact ⟨rd, immField w, by rw [decode, hfield, hop, decodeRI, if_pos hmbz, hrd]⟩

theorem decode_of_selects_RR {m : String} {op : BitVec 4} {mk : Reg → Reg → Instr} {w : IWord}
    (hop : ∀ v, decodeOp op.toNat v = decodeRR mk v)
    (hs : (OpcodeRow.mk m (op.setWidth 32 <<< 28) 0xF03FFFFF#32).selects w = true) (ha : (raField w).toNat ≤ 5)
    (hb : (rbField w).toNat ≤ 5) : ∃ ra rb, decode w = .ok (mk ra rb) := by
  obtain ⟨hfield, hmbz⟩ := (selects_RR w op).mp (beq_iff_eq.mp hs)
  obtain ⟨ra, hra⟩ := exists_reg ha
  obtain ⟨rb, hrb⟩ := exists_reg hb
  exact ⟨ra, rb, by rw [decode, hfield, hop, decodeRR, if_pos hmbz, hra, hrb]⟩

theorem decode_of_selects_J {m : String} {op : BitVec 4} {mk : Index → Instr} {w : IWord}
    (hop : ∀ v, decodeOp op.toNat v = decodeJ mk v)
    (hs : (OpcodeRow.mk m (op.setWidth 32 <<< 28) 0xFFFF0000#32).selects w = true) : ∃ tgt, decode w = .ok (mk tgt) := by
  obtain ⟨hfield, hmbz⟩ := (selects_J w op).mp (beq_iff_eq.mp hs)
  exact ⟨tgtField w, by rw [decode, hfield, hop, decodeJ, if_pos hmbz]⟩

/-- Settles O4: a word that decodes is its instruction's encoding (O3), which the instruction's row selects; a row selects by `op` and
the must-be-zero bits, so with its registers in range the word decodes to the row's constructor. -/
theorem opcodeMapSelectsTheInstruction : Obligations.OpcodeMapSelectsTheInstruction := by
  refine ⟨fun w i h => ?_, fun w r hr hs ha hb => ?_⟩
  · rw [← encodeOfDecode w i h]
    exact row_selects_encode i
  · simp only [opcodeRows, List.mem_cons, List.not_mem_nil, or_false] at hr
    rcases hr with rfl | rfl | rfl | rfl | rfl | rfl | rfl | rfl
    · obtain ⟨rd, imm, h⟩ := decode_of_selects_RI (op := 0x0#4) (mk := .mov) (fun _ => rfl) hs (ha (by decide))
      exact ⟨_, h, rfl⟩
    · obtain ⟨ra, rb, h⟩ := decode_of_selects_RR (op := 0x1#4) (mk := .add) (fun _ => rfl) hs (ha (by decide)) (hb (by decide))
      exact ⟨_, h, rfl⟩
    · obtain ⟨rd, imm, h⟩ := decode_of_selects_RI (op := 0x2#4) (mk := .addi) (fun _ => rfl) hs (ha (by decide))
      exact ⟨_, h, rfl⟩
    · obtain ⟨ra, rb, h⟩ := decode_of_selects_RR (op := 0x3#4) (mk := .cmp) (fun _ => rfl) hs (ha (by decide)) (hb (by decide))
      exact ⟨_, h, rfl⟩
    · obtain ⟨tgt, h⟩ := decode_of_selects_J (op := 0x4#4) (mk := .je) (fun _ => rfl) hs
      exact ⟨_, h, rfl⟩
    · obtain ⟨tgt, h⟩ := decode_of_selects_J (op := 0x5#4) (mk := .jmp) (fun _ => rfl) hs
      exact ⟨_, h, rfl⟩
    · obtain ⟨ra, rb, h⟩ := decode_of_selects_RR (op := 0x6#4) (mk := .ld) (fun _ => rfl) hs (ha (by decide)) (hb (by decide))
      exact ⟨_, h, rfl⟩
    · obtain ⟨ra, rb, h⟩ := decode_of_selects_RR (op := 0x7#4) (mk := .st) (fun _ => rfl) hs (ha (by decide)) (hb (by decide))
      exact ⟨_, h, rfl⟩

/-- Every row's mask covers `op`, and its `match` has no bit outside `op` (R85). -/
theorem opcodeRows_cover_op : ∀ r ∈ opcodeRows, r.mask &&& 0xF0000000#32 = 0xF0000000#32 ∧
    r.matchBits &&& 0xF0000000#32 = r.matchBits := by
  decide

theorem opcodeRows_matchBits_injective : ∀ r ∈ opcodeRows, ∀ q ∈ opcodeRows, r.matchBits = q.matchBits → r = q := by
  decide

/-- A row that selects a word has the word's `op` bits as its `match` (R85). -/
theorem matchBits_of_selects {r : OpcodeRow} {w : IWord} (hr : r ∈ opcodeRows) (hs : r.selects w = true) :
    r.matchBits = w &&& 0xF0000000#32 := by
  obtain ⟨hmask, hmatch⟩ := opcodeRows_cover_op r hr
  have hsel : w &&& r.mask = r.matchBits := beq_iff_eq.mp hs
  calc r.matchBits = r.matchBits &&& 0xF0000000#32 := hmatch.symm
    _ = w &&& (r.mask &&& 0xF0000000#32) := by rw [← hsel, BitVec.and_assoc]
    _ = w &&& 0xF0000000#32 := by rw [hmask]

/-- Settles O5: the word's `op` bits are the `match` of either row, and no two rows share one. -/
theorem opcodeRowsAreDisjoint : Obligations.OpcodeRowsAreDisjoint := by
  intro w r q hr hq hrs hqs
  exact opcodeRows_matchBits_injective r hr q hq ((matchBits_of_selects hr hrs).trans (matchBits_of_selects hq hqs).symm)

/-! ### Invalid words (R90) -/

/-- Settles O6: the opcode number picks the format, and each format's decoder fails on its own grounds. -/
theorem invalidWords : Obligations.InvalidWords := by
  intro w
  obtain ⟨n, hn⟩ : ∃ n, (opField w).toNat = n := ⟨_, rfl⟩
  have hop : opField w = BitVec.ofNat 4 n := by rw [← hn, BitVec.ofNat_toNat, BitVec.setWidth_eq]
  rw [isInvalid_eq_true, decode, hn]
  match n, hop with
  | 0, hop => simpa [hop, decodeOp] using decodeRI_error .mov w
  | 1, hop => simpa [hop, decodeOp] using decodeRR_error .add w
  | 2, hop => simpa [hop, decodeOp] using decodeRI_error .addi w
  | 3, hop => simpa [hop, decodeOp] using decodeRR_error .cmp w
  | 4, hop => simpa [hop, decodeOp] using decodeJ_error .je w
  | 5, hop => simpa [hop, decodeOp] using decodeJ_error .jmp w
  | 6, hop => simpa [hop, decodeOp] using decodeRR_error .ld w
  | 7, hop => simpa [hop, decodeOp] using decodeRR_error .st w
  | n + 8, _ => exact iff_of_true ⟨.reservedOp, rfl⟩ (.inl (Nat.le_add_left 8 n))

/-! ### The worked encodings (R121) -/

/-- Settles O1: the twelve rows by evaluation, the fields in place by the encoders' values. -/
theorem workedEncodings : Obligations.WorkedEncodings := by
  refine ⟨by decide, fun r q b => ⟨fun i hi => ?_, fun i hi => ?_⟩⟩
  · simp only [List.mem_cons, List.not_mem_nil, or_false] at hi
    rcases hi with rfl | rfl
    · exact encodeRI_toNat 0 r b (by decide)
    · exact encodeRI_toNat 2 r b (by decide)
  · simp only [List.mem_cons, List.not_mem_nil, or_false] at hi
    rcases hi with rfl | rfl | rfl | rfl
    · exact encodeRR_toNat 1 r q (by decide)
    · exact encodeRR_toNat 3 r q (by decide)
    · exact encodeRR_toNat 6 r q (by decide)
    · exact encodeRR_toNat 7 r q (by decide)

/-! ### The record view (R80, R84, R92) -/

/-- The signed reading of a byte is an immediate (R8, R80). -/
@[simp] theorem immOk_s8 (b : Byte) : InstrRecord.immOk (s8 b) = true := by
  have hlow := BitVec.le_toInt b
  have hhigh := BitVec.toInt_lt (x := b)
  rw [s8_eq_toInt, InstrRecord.immOk, Bool.and_eq_true, decide_eq_true_iff, decide_eq_true_iff]
  omega

theorem s8_byteOfInt {n : Int} (hlow : -128 ≤ n) (hhigh : n ≤ 127) : s8 (byteOfInt n) = n := by
  rw [s8_eq_toInt, byteOfInt, BitVec.toInt_ofInt]
  exact Int.bmod_eq_of_le (by omega) (by omega)

@[simp] theorem regSet_val (r : Reg) : InstrRecord.regSet (r.val : Int) = true := by
  have := r.isLt
  rw [InstrRecord.regSet, Bool.and_eq_true, decide_eq_true_iff, decide_eq_true_iff]
  omega

@[simp] theorem recordReg_val (r : Reg) : recordReg (r.val : Int) = some r := by
  have := r.isLt
  rw [recordReg, dif_pos (by omega)]
  simp

@[simp] theorem targetOk_toNat (t : Index) : InstrRecord.targetOk t.toNat = true := by
  have := t.isLt
  rw [InstrRecord.targetOk, decide_eq_true_iff]
  omega

theorem toRecord_wellFormed (i : Instr) : i.toRecord.wellFormed = true := by
  cases i <;> simp [Instr.toRecord, InstrRecord.wellFormed, InstrRecord.regUnset]

theorem toInstr_toRecord (i : Instr) : i.toRecord.toInstr = some i := by
  rw [InstrRecord.toInstr, if_pos (toRecord_wellFormed i)]
  cases i <;> simp [Instr.toRecord]

/-- Settles O8: each opcode's record has its registers, immediate or target in range, and they read back as the operands. -/
theorem recordViewIsFaithful : Obligations.RecordViewIsFaithful := by
  refine ⟨fun i => ⟨toRecord_wellFormed i, toInstr_toRecord i⟩, fun r q b t => ?_⟩
  refine ⟨rfl, rfl, rfl, rfl, rfl, rfl, rfl, rfl, fun i hi => ?_⟩
  simp only [List.mem_cons, List.not_mem_nil, or_false] at hi
  rcases hi with rfl | rfl | rfl | rfl <;> exact ⟨rfl, rfl⟩

namespace Machine

/-- Settles O7: a byte and its signed reading determine each other, and MOV and ADDI take the byte as it is. -/
theorem immediateIsAByte : Obligations.ImmediateIsAByte := by
  refine ⟨byteOfInt_s8, fun n => s8_byteOfInt, fun rd imm => ⟨rfl, rfl⟩, fun rd imm s => ⟨⟨_, rfl, ?_⟩, ⟨_, rfl, ?_⟩⟩⟩
  · exact State.readReg_writeReg_same s rd imm
  · exact State.readReg_writeReg_same s rd _

/-! ### Resolved words (R88, R89) -/

/-- A word with the `op` of JE or JMP is Invalid exactly by its must-be-zero bits (R90). -/
theorem isInvalid_of_branch {w : IWord} (h : isBranchWord w = true) : isInvalid w = true ↔ mbzJ w ≠ 0 := by
  simp only [isBranchWord, Bool.or_eq_true, beq_iff_eq] at h
  rw [invalidWords w]
  rcases h with h | h <;> simp [h]

/-- Settles O42: the resolver keeps `op` and the must-be-zero bits of a branch word, and on an instruction is `resolveInstr`. -/
theorem resolvingKeepsTheInstruction : Obligations.ResolvingKeepsTheInstruction := by
  intro img w
  refine ⟨?_, fun i h => ⟨decode_resolveWord img h, ?_⟩⟩
  · cases hb : isBranchWord w with
    | false => rw [resolveWord_of_other hb]
    | true =>
      have hb' : isBranchWord (resolveWord img w) = true := (isBranchWord_resolveWord img w).trans hb
      rw [Bool.eq_iff_iff, isInvalid_of_branch hb', isInvalid_of_branch hb, (resolveWord_fields img w).2]
  · cases i <;> rfl

end Machine

end Sys2Proof
end

section
/-! PROOFS. The assembler: a printed line parses to its instruction, brackets are delimiters only, the first bad line rejects the text, and
what `imm_out_of_range` does (R100 to R120). -/

namespace Sys2Proof.Machine

/-! ### The tokens of a printed instruction (R101, R120) -/

/-- The characters yield one token, before a delimiter or at the end of the line (R101). -/
def YieldsToken (x : List Char) (t : Token) : Prop :=
  (∀ c rest, isDelimiter c = true → tokens (x ++ c :: rest) = t :: tokens rest) ∧ tokens x = [t]

/-- A non-empty run of non-delimiters yields itself. -/
theorem yieldsToken_self {t : Token} (hne : t ≠ []) (h : ∀ c ∈ t, isDelimiter c = false) : YieldsToken t t :=
  ⟨fun _ _ hc => tokens_append hne h hc, tokens_last hne h⟩

/-- A run in brackets yields the run (R115). -/
theorem yieldsToken_bracketed {t : Token} (hne : t ≠ []) (h : ∀ c ∈ t, isDelimiter c = false) : YieldsToken (bracketed t) t := by
  have hclose : ∀ rest, tokens (bracketed t ++ rest) = t :: tokens rest := fun rest =>
    calc tokens (bracketed t ++ rest) = tokens ('[' :: (t ++ ']' :: rest)) := by simp [bracketed]
      _ = tokens (t ++ ']' :: rest) := tokens_cons_delimiter rfl
      _ = t :: tokens rest := tokens_append hne h rfl
  refine ⟨fun c rest hc => ?_, ?_⟩
  · rw [hclose, tokens_cons_delimiter hc]
  · rw [← List.append_nil (bracketed t), hclose]
    rfl

theorem yieldsToken_regText (r : Reg) : YieldsToken (regText r) (regText r) := by
  obtain ⟨-, -, hne, hplain⟩ := regText_spec r
  exact yieldsToken_self hne hplain

theorem yieldsToken_bracketed_regText (r : Reg) : YieldsToken (bracketed (regText r)) (regText r) := by
  obtain ⟨-, -, hne, hplain⟩ := regText_spec r
  exact yieldsToken_bracketed hne hplain

theorem yieldsToken_decimal (n : Nat) : YieldsToken (decimal n) (decimal n) :=
  yieldsToken_self (decimal_spec n).1 (decimal_noDelimiter n)

theorem yieldsToken_decimalInt (n : Int) : YieldsToken (decimalInt n) (decimalInt n) := by
  obtain ⟨-, hne, hplain, -⟩ := decimalInt_spec n
  exact yieldsToken_self hne hplain

/-- The text of an instruction with two operands has three tokens (R120). -/
theorem tokens_twoOperands {kw a b : List Char} {tk ta tb : Token} (hk : YieldsToken kw tk) (ha : YieldsToken a ta)
    (hb : YieldsToken b tb) : tokens (twoOperands kw a b) = [tk, ta, tb] :=
  calc tokens (twoOperands kw a b) = tokens (kw ++ ' ' :: (a ++ ',' :: ' ' :: b)) := by simp [twoOperands]
    _ = tk :: tokens (a ++ ',' :: ' ' :: b) := hk.1 ' ' _ rfl
    _ = tk :: ta :: tokens (' ' :: b) := by rw [ha.1 ',' _ rfl]
    _ = [tk, ta, tb] := by rw [tokens_cons_delimiter rfl, hb.2]

/-! ### The operands of a printed instruction (R107 to R114) -/

theorem twoRegs_regText (mk : Reg → Reg → Instr) (ra rb : Reg) : twoRegs mk (regText ra) (regText rb) = .ok (mk ra rb) := by
  rw [twoRegs, (regText_spec ra).1, (regText_spec rb).1]

theorem regAndImm_regText (p : ImmPolicy) (mk : Reg → Byte → Instr) (r : Reg) (b : Token) :
    regAndImm p mk (regText r) b = (immToken p b).map (mk r) := by
  rw [regAndImm, (regText_spec r).1]
  cases immToken p b <;> rfl

theorem immToken_wrap {b : Token} {n : Int} (h : intToken b = some n) : immToken .wrap b = .ok (byteOfInt n) := by
  rw [immToken, h]

/-- A number in range is its byte under either setting (R92, R116). -/
theorem immToken_inRange (p : ImmPolicy) {b : Token} {n : Int} (h : intToken b = some n) (hn : InstrRecord.immOk n = true) :
    immToken p b = .ok (byteOfInt n) := by
  cases p with
  | wrap => exact immToken_wrap h
  | reject => simp only [immToken, h, hn, if_true]

theorem immToken_reject_outOfRange {b : Token} {n : Int} (h : intToken b = some n) (hn : InstrRecord.immOk n = false) :
    immToken .reject b = .error .immOutOfRange := by
  simp only [immToken, h, hn, Bool.false_eq_true, if_false]

/-- A printed immediate reads as its byte under either setting (R92, R116). -/
theorem immToken_decimalInt (p : ImmPolicy) (imm : Byte) : immToken p (decimalInt (s8 imm)) = .ok imm := by
  rw [immToken_inRange p (decimalInt_spec _).1 (immOk_s8 imm), byteOfInt_s8]

/-- A number token is no register, so as ADD's second operand it is an immediate (R110). -/
theorem beginsWithR_of_intToken {b : Token} {n : Int} (h : intToken b = some n) : beginsWithR b = false := by
  cases b with
  | nil => rfl
  | cons c cs =>
    by_cases hc : c = 'R'
    · subst hc
      exact absurd h (by simp [intToken, natToken, digitsValue, digitValue])
    · exact beq_false_of_ne hc

/-- A register and a number are one immediate instruction, MOV's or ADDI's (R109, R110). -/
theorem parseTwo_immediate (p : ImmPolicy) (r : Reg) {b : Token} {n : Int} (h : intToken b = some n) :
    parseTwo p .mov (regText r) b = (immToken p b).map (.mov r) ∧
      parseTwo p .add (regText r) b = (immToken p b).map (.addi r) := by
  refine ⟨regAndImm_regText p .mov r b, ?_⟩
  rw [parseTwo, beginsWithR_of_intToken h, if_neg Bool.false_ne_true, regAndImm_regText]

theorem branchOperand_decimal (mk : Index → Instr) (tgt : Index) : branchOperand mk (decimal tgt.toNat) = .ok (mk tgt) := by
  rw [branchOperand, lineToken_decimal]

/-! ### A printed line (R100, R103, R104) -/

/-- The seven keywords, as they are written (R104). -/
def keywordTexts : List Token :=
  [['M', 'O', 'V'], ['A', 'D', 'D'], ['C', 'M', 'P'], ['J', 'E'], ['J', 'M', 'P'], ['L', 'D'], ['S', 'T']]

theorem keywordTexts_plain : ∀ t ∈ keywordTexts, t ≠ [] ∧ ∀ c ∈ t, isDelimiter c = false := by
  simp [keywordTexts, isDelimiter]

theorem mem_keywordTexts {t : Token} {k : Keyword} (h : keywordToken t = some k) : t ∈ keywordTexts := by
  by_contra hno
  simp only [keywordTexts, List.mem_cons, List.not_mem_nil, or_false, not_or] at hno
  simp [keywordToken, hno] at h

theorem yieldsToken_keyword {t : Token} {k : Keyword} (h : keywordToken t = some k) : YieldsToken t t := by
  obtain ⟨hne, hplain⟩ := keywordTexts_plain t (mem_keywordTexts h)
  exact yieldsToken_self hne hplain

/-- A printed line parses to its instruction when the tokens of the instruction's text do. -/
theorem parseLine_lineText {p : ImmPolicy} {l : LineNo} {i : Instr} {kw : Token} {k : Keyword} {ops : List Token}
    (htokens : tokens (disassemble i) = kw :: ops) (hkw : keywordToken kw = some k) (hops : parseOperands p k ops = .ok i) :
    parseLine p (lineText l i) = .ok (some ⟨encode i, l⟩) := by
  rw [parseLine, lineText, (yieldsToken_decimal _).1 ' ' _ rfl, htokens]
  simp only [parseTokens, lineToken_decimal, hkw, hops]

theorem parseLine_twoOperands {p : ImmPolicy} {l : LineNo} {i : Instr} (kw : Token) {k : Keyword} {a b : List Char} {ta tb : Token}
    (htext : disassemble i = twoOperands kw a b) (hkw : keywordToken kw = some k) (ha : YieldsToken a ta) (hb : YieldsToken b tb)
    (hops : parseTwo p k ta tb = .ok i) : parseLine p (lineText l i) = .ok (some ⟨encode i, l⟩) :=
  parseLine_lineText (ops := [ta, tb]) (htext ▸ tokens_twoOperands (yieldsToken_keyword hkw) ha hb) hkw hops

theorem parseLine_branch {p : ImmPolicy} {l : LineNo} {i : Instr} (kw : Token) {k : Keyword} {tgt : Index}
    (htext : disassemble i = kw ++ ' ' :: decimal tgt.toNat) (hkw : keywordToken kw = some k)
    (hops : parseOne k (decimal tgt.toNat) = .ok i) : parseLine p (lineText l i) = .ok (some ⟨encode i, l⟩) := by
  refine parseLine_lineText (ops := [decimal tgt.toNat]) ?_ hkw hops
  rw [htext, (yieldsToken_keyword hkw).1 ' ' _ rfl, (yieldsToken_decimal _).2]

/-- Settles O55: the text of each instruction yields its keyword and operands, and each operand reads back as the field that was
printed. -/
theorem parseOfPrintedLine : Obligations.ParseOfPrintedLine := by
  intro p l i
  cases i with
  | mov rd imm =>
    refine parseLine_twoOperands ['M', 'O', 'V'] rfl rfl (yieldsToken_regText rd) (yieldsToken_decimalInt _) ?_
    rw [(parseTwo_immediate p rd (decimalInt_spec _).1).1, immToken_decimalInt]
    rfl
  | add ra rb =>
    refine parseLine_twoOperands ['A', 'D', 'D'] rfl rfl (yieldsToken_regText ra) (yieldsToken_regText rb) ?_
    rw [parseTwo, if_pos (regText_spec rb).2.1, twoRegs_regText]
  | addi rd imm =>
    refine parseLine_twoOperands ['A', 'D', 'D'] rfl rfl (yieldsToken_regText rd) (yieldsToken_decimalInt _) ?_
    rw [(parseTwo_immediate p rd (decimalInt_spec _).1).2, immToken_decimalInt]
    rfl
  | cmp ra rb =>
    exact parseLine_twoOperands ['C', 'M', 'P'] rfl rfl (yieldsToken_regText ra) (yieldsToken_regText rb)
      (twoRegs_regText .cmp ra rb)
  | je tgt => exact parseLine_branch ['J', 'E'] rfl rfl (branchOperand_decimal .je tgt)
  | jmp tgt => exact parseLine_branch ['J', 'M', 'P'] rfl rfl (branchOperand_decimal .jmp tgt)
  | ld ra rb =>
    exact parseLine_twoOperands ['L', 'D'] rfl rfl (yieldsToken_regText ra) (yieldsToken_bracketed_regText rb)
      (twoRegs_regText .ld ra rb)
  | st ra rb =>
    exact parseLine_twoOperands ['S', 'T'] rfl rfl (yieldsToken_bracketed_regText ra) (yieldsToken_regText rb)
      (twoRegs_regText .st ra rb)

/-! ### Brackets (R101, R115) -/

/-- The tokeniser reads a bracket as it reads a space. -/
theorem tokenStep_bracketToSpace (c : Char) : tokenStep (if c = '[' ∨ c = ']' then ' ' else c) = tokenStep c := by
  by_cases h : c = '[' ∨ c = ']'
  · rw [if_pos h]
    rcases h with rfl | rfl <;> rfl
  · rw [if_neg h]

/-- Settles O58: the line yields the same tokens, and the parse reads nothing else. -/
theorem bracketsAreOnlyDelimiters : Obligations.BracketsAreOnlyDelimiters := by
  intro p line
  refine congrArg (parseTokens p) ?_
  simp only [tokens, List.foldr_map, tokenStep_bracketToSpace]

/-! ### The first bad line (R117) -/

/-- The lines before the first bad one only move its position. -/
theorem assembleFrom_rejected {p : ImmPolicy} {lines : List (List Char)} {k : Nat} {raw : List Char} {why : LineError}
    (position : Nat) (hk : lines[k]? = some raw) (hbad : parseLine p raw = .error why)
    (hgood : ∀ j l, j < k → lines[j]? = some l → ∃ r, parseLine p l = .ok r) :
    assembleFrom p position lines = .rejected (position + k) raw why := by
  induction lines generalizing k position with
  | nil => simp at hk
  | cons l rest ih =>
    cases k with
    | zero =>
      obtain rfl : l = raw := by simpa using hk
      simp only [assembleFrom, hbad, Nat.add_zero]
    | succ k =>
      have hrest : assembleFrom p (position + 1) rest = .rejected (position + (k + 1)) raw why := by
        rw [ih (position + 1) (by simpa using hk) fun j m hj hm => hgood (j + 1) m (by omega) (by simpa using hm)]
        congr 1
        omega
      obtain ⟨r, hr⟩ := hgood 0 l (by omega) rfl
      cases r <;> simp only [assembleFrom, hr, hrest]

/-- Settles O57: a text's lines are assembled from position 0. -/
theorem oneBadLineRejectsTheText : Obligations.OneBadLineRejectsTheText := by
  intro p lines k raw why hk hbad hgood
  rw [assembleLines, assembleFrom_rejected 0 hk hbad hgood, Nat.zero_add]

/-! ### The parameter `imm_out_of_range` (R116) -/

/-- Settles O59: MOV and ADD both take the byte that the setting gives the number. -/
theorem immediateOutOfRangePolicy : Obligations.ImmediateOutOfRangePolicy := by
  intro r b n h
  obtain ⟨hwmov, hwadd⟩ := parseTwo_immediate .wrap r h
  obtain ⟨hrmov, hradd⟩ := parseTwo_immediate .reject r h
  rw [hwmov, hwadd, hrmov, hradd, immToken_wrap h]
  refine ⟨rfl, rfl, fun hin => ?_, fun hout => ?_⟩
  · rw [immToken_inRange .reject h (by simpa [InstrRecord.immOk] using hin)]
    exact ⟨rfl, rfl⟩
  · rw [immToken_reject_outOfRange h (by simp only [InstrRecord.immOk, Bool.and_eq_false_iff, decide_eq_false_iff_not]; omega)]
    exact ⟨rfl, rfl⟩

end Sys2Proof.Machine
end

section
/-! PROOFS. The execution loop: what a step does in each case of the loop test and the fetch, that execution cannot fail, and whole runs: the
empty program, straight-line programs, a branch to itself (R131 to R141). -/

namespace Sys2Proof.Machine

/-! ### One step of the loop (R131, R134) -/

theorem step_running_invalid {s : State} {p : ResolvedProgram} {e : Entry} (h : s.status = .running)
    (hr : s.program = .resolved p) (he : p.entries[s.pc.toNat]? = some e) (hi : isInvalid e.word = true) :
    step s = .fault .invalidWord := by
  obtain ⟨r, hd⟩ := (isInvalid_eq_true e.word).mp hi
  simp [step_running h hr, runStep, fetchWord_eq, he, hd]

theorem decodeTableWord_eq_some {nbits w : Nat} {i : Instr} (h : decodeTableWord nbits w = some i) :
    decode (tableWord nbits w) = .ok i := by
  unfold decodeTableWord at h
  cases hd : decode (tableWord nbits w) with
  | ok j => simpa [hd] using h
  | error r => simp [hd] at h

/-- Settles O28: the fetch is counted, then the decoded instruction executes. -/
theorem stepRunsTheDecodedInstruction : Obligations.StepRunsTheDecodedInstruction :=
  fun _ _ _ _ hs hr he hd => step_running_fetched hs hr he hd

/-- Settles O29: the failed loop test halts, and halting writes `status` only. -/
theorem loopTestEndsTheRun : Obligations.LoopTestEndsTheRun :=
  fun _ _ hs hr hpc => step_running_ended hs hr hpc

/-- Settles O30: the fetched word has no instruction to execute. -/
theorem invalidWordAtFetchFaults : Obligations.InvalidWordAtFetchFaults :=
  fun _ _ _ hs hr he hi => step_running_invalid hs hr he hi

/-- Settles O31: the placed word is the entry at `pc`, so it is the word fetched. -/
theorem placedWordRunsNext : Obligations.PlacedWordRunsNext := by
  intro s nbits w i h
  obtain ⟨l, hl⟩ := place_getElem? s.image s.pc.toNat (tableWord nbits w)
  exact step_running_fetched rfl rfl hl (decodeTableWord_eq_some h)

/-! ### Execution cannot fail (R88, R138) -/

/-- Before the start is given a step waits; after it, the program is unresolved and is rejected or begun. -/
theorem steps_of_idle {s : State} (hphase : PhaseInv s) (hs : s.status = .idle) : Steps s := by
  obtain ⟨-, hform⟩ := (phaseInv_idle hs).mp hphase
  obtain ⟨p, hu⟩ := (isResolved_eq_false s.program).mp hform
  cases hp : s.startPending with
  | false => exact ⟨_, step_idle_waiting hs hp⟩
  | true => exact ⟨_, step_idle_start hs hp hu⟩

/-- In a run every word that can be fetched decodes (R88), and every instruction answers a next state. -/
theorem steps_of_running {s : State} (hphase : PhaseInv s) (hs : s.status = .running) : Steps s := by
  obtain ⟨hform, hok, -, -⟩ := (phaseInv_running hs).mp hphase
  obtain ⟨p, hr⟩ := (isResolved_eq_true s.program).mp hform
  rw [image_of_resolved hr] at hok
  cases he : p.entries[s.pc.toNat]? with
  | none => exact ⟨_, step_running_ended hs hr (List.getElem?_eq_none_iff.mp he)⟩
  | some e =>
    obtain ⟨i, hd, -⟩ := (resolvedOk_iff p.entries).mp hok e (List.mem_of_getElem? he)
    obtain ⟨t, ht, -⟩ := exec_total i s.countFetch
    exact ⟨t, (step_running_fetched hs hr he hd).trans ht⟩

theorem steps_of_inv {s : State} (h : Inv s) : Steps s := by
  obtain ⟨-, -, -, hphase⟩ := h
  cases hs : s.status with
  | idle => exact steps_of_idle hphase hs
  | running => exact steps_of_running hphase hs
  | halted => exact ⟨s, step_of_stopped (.inl hs)⟩
  | rejected => exact ⟨s, step_of_stopped (.inr hs)⟩

/-- A Running machine stays Running or halts (R40). -/
theorem step_status_of_running {s t : State} (hs : s.status = .running) (h : step s = .next t) :
    t.status = .running ∨ t.status = .halted := by
  by_cases hne : t.status = s.status
  · exact .inl (hne.trans hs)
  · obtain ⟨hidle, -⟩ | ⟨-, -, ht⟩ := step_status h hne
    · simp [hs] at hidle
    · exact .inr ht

/-- Settles O49: the invariant gives each phase a step, every reachable state has it, and no instruction can fail. -/
theorem executionCannotFail : Obligations.ExecutionCannotFail := by
  refine ⟨fun s => steps_of_inv, fun s h => steps_of_inv (inv_of_reachable h), fun s t => step_status_of_running,
    fun i s => ?_, fun i s a => dataAddress_lt⟩
  obtain ⟨t, ht, -⟩ := exec_total i s
  exact ⟨t, ht⟩

/-- Settles O52: with no access there is no hit, and what is left of R39's sum is one cycle per instruction. -/
theorem cyclesEqualInstructionsWithoutMemory : Obligations.CyclesEqualInstructionsWithoutMemory := by
  intro s h hldst
  obtain ⟨-, ⟨-, hhit, -, hcyc⟩, -⟩ := inv_of_reachable h
  omega

/-! ### Runs of several steps -/

theorem stepsTo_add {m n : Nat} {s u t : State} (hm : StepsTo m s u) (hn : StepsTo n u t) : StepsTo (m + n) s t := by
  induction m generalizing s with
  | zero =>
    obtain rfl : u = s := hm
    rwa [Nat.zero_add]
  | succ m ih =>
    obtain ⟨v, hv, hrest⟩ := hm
    rw [Nat.succ_add]
    exact ⟨v, hv, ih hrest⟩

theorem stepsTo_one (s t : State) : StepsTo 1 s t ↔ step s = .next t := by
  simp [StepsTo]

/-- The state in which the run of a valid image begins (R253): the store resolved, all else at reset. -/
def State.begun (img : Image) : State := { State.reset with program := .resolved (resolve ⟨img⟩), status := .running }

theorem step_boot {img : Image} (h : firstInvalid img = none) : step (boot img) = .next (State.begun img) := by
  rw [step_idle_start rfl rfl rfl, startRun_valid h]
  rfl

/-- Settles O32: the empty image is valid and resolves to itself, and the loop test fails at once. -/
theorem emptyProgramHaltsAtOnce : Obligations.EmptyProgramHaltsAtOnce := by
  have hstart : step (boot []) = .next (State.begun []) := step_boot rfl
  have hend : step (State.begun []) = .next (State.begun []).halt := step_running_ended rfl rfl le_rfl
  refine ⟨⟨_, hstart, (stepsTo_one _ _).mpr hend⟩, fun t ht => ?_⟩
  rw [stepsTo_one, hstart] at ht
  cases ht
  rfl

/-! ### Straight-line programs (R141) -/

/-- Every entry decodes to an instruction other than JE and JMP. -/
def StraightImage (img : Image) : Prop := ∀ e ∈ img, ∃ i, decode e.word = .ok i ∧ straight i = true

theorem nextPc_of_straight {i : Instr} (h : straight i = true) (s : State) : nextPc i s = s.pc + 1#16 := by
  cases i with
  | je tgt => simp [straight] at h
  | jmp tgt => simp [straight] at h
  | _ => rfl

theorem isBranchWord_of_straight {w : IWord} {i : Instr} (hd : decode w = .ok i) (h : straight i = true) :
    isBranchWord w = false := by
  rw [isBranchWord_of_decode hd]
  cases i with
  | je tgt => simp [straight] at h
  | jmp tgt => simp [straight] at h
  | _ => rfl

theorem StraightImage.valid {img : Image} (h : StraightImage img) : firstInvalid img = none := by
  refine (firstInvalid_eq_none img).mpr fun e he => ?_
  obtain ⟨i, hd, -⟩ := h e he
  exact (isInvalid_eq_false e.word).mpr ⟨i, hd⟩

/-- The resolver finds no branch to change (R180). -/
theorem StraightImage.resolve_eq {img : Image} (h : StraightImage img) : resolve ⟨img⟩ = ⟨img⟩ := by
  have hentry : ∀ e ∈ img, { e with word := resolveWord img e.word } = e := by
    intro e he
    obtain ⟨i, hd, hi⟩ := h e he
    rw [resolveWord_of_other (isBranchWord_of_straight hd hi)]
  rw [resolve, List.map_congr_left hentry, List.map_id']

/-- The run of a straight-line program after `k` instructions: Running at index `k` with `k` fetches counted. -/
structure StraightRun (img : Image) (k : Nat) (s : State) : Prop where
  status : s.status = .running
  pc : s.pc.toNat = k
  instret : s.instret = k
  program : s.program = .resolved ⟨img⟩

theorem StraightImage.begun {img : Image} (h : StraightImage img) : StraightRun img 0 (State.begun img) :=
  ⟨rfl, rfl, rfl, congrArg Program.resolved h.resolve_eq⟩

/-- One more instruction executes, and `pc` moves to the next index: it does not wrap, since an image has at most 65535 entries. -/
theorem StraightRun.succ {img : Image} {k : Nat} {s : State} (h : StraightRun img k s) (himg : StraightImage img)
    (hlen : img.length ≤ 65535) (hk : k < img.length) : ∃ t, step s = .next t ∧ StraightRun img (k + 1) t := by
  obtain ⟨hs, hpc, hinstret, hr⟩ := h
  obtain ⟨i, hd, hi⟩ := himg img[k] (List.getElem_mem hk)
  have he : img[s.pc.toNat]? = some img[k] := by rw [hpc, List.getElem?_eq_getElem hk]
  obtain ⟨t, ht, hprogram, hstatus, -, -, hcount⟩ := exec_total i s.countFetch
  refine ⟨t, (step_running_fetched hs hr he hd).trans ht, hstatus.trans hs, ?_, ?_, hprogram.trans hr⟩
  · rw [exec_pc ht, nextPc_of_straight hi, State.countFetch_pc, BitVec.toNat_add, hpc, BitVec.toNat_ofNat]
    omega
  · rw [hcount, State.countFetch_instret, hinstret]

/-- R141: after the start and `k` further steps, `k` instructions have executed. -/
theorem StraightImage.run {img : Image} (h : StraightImage img) (hlen : img.length ≤ 65535) {k : Nat} (hk : k ≤ img.length) :
    ∃ t, StepsTo (1 + k) (boot img) t ∧ StraightRun img k t := by
  induction k with
  | zero => exact ⟨_, (stepsTo_one _ _).mpr (step_boot h.valid), h.begun⟩
  | succ k ih =>
    obtain ⟨s, hsteps, hrun⟩ := ih (by omega)
    obtain ⟨t, ht, hnext⟩ := hrun.succ h hlen hk
    exact ⟨t, stepsTo_add (m := 1 + k) hsteps ((stepsTo_one s t).mpr ht), hnext⟩

/-- Settles O33: by induction on the number of steps, and at index `LEN` the loop test fails. -/
theorem straightLineProgramsHalt : Obligations.StraightLineProgramsHalt := by
  intro img hlen himg
  refine ⟨fun k hk => ?_, ?_⟩
  · obtain ⟨t, hsteps, hrun⟩ := StraightImage.run himg hlen hk
    exact ⟨t, hsteps, hrun.status, hrun.pc, hrun.instret, hrun.program⟩
  · obtain ⟨t, hsteps, hrun⟩ := StraightImage.run himg hlen le_rfl
    have hend : step t = .next t.halt := step_running_ended hrun.status hrun.program hrun.pc.ge
    exact ⟨t.halt, stepsTo_add hsteps ((stepsTo_one _ _).mpr hend), rfl, hrun.instret⟩

/-! ### A branch to itself (R136) -/

/-- The state after `n` more instructions of one cycle each that change nothing else. -/
def State.spun (s : State) (n : Nat) : State := { s with instret := s.instret + n, cycles := s.cycles + n }

theorem State.spun_succ (s : State) (n : Nat) : s.spun (n + 1) = (s.spun 1).spun n := by
  simp only [State.spun, Nat.add_assoc, Nat.add_comm 1 n]

/-- A JMP, or a JE with the flag true, whose target is its own index. -/
def SelfBranch (i : Instr) (s : State) : Prop := i = .jmp s.pc ∨ (i = .je s.pc ∧ s.eq = true)

/-- A taken branch to itself leaves `pc` where it was (R186, R187). -/
theorem exec_selfBranch {i : Instr} {s : State} (h : SelfBranch i s) : exec i s.countFetch = .next (s.spun 1) := by
  obtain rfl | ⟨rfl, heq⟩ := h
  · rfl
  · rw [exec_je, nextPc, State.countFetch_eq, if_pos heq]
    rfl

theorem stepsTo_spun {s : State} {p : ResolvedProgram} {e : Entry} {i : Instr} (hs : s.status = .running)
    (hr : s.program = .resolved p) (he : p.entries[s.pc.toNat]? = some e) (hd : decode e.word = .ok i) (hi : SelfBranch i s)
    (n : Nat) : StepsTo n s (s.spun n) := by
  induction n generalizing s with
  | zero => rfl
  | succ n ih =>
    have hstep : step s = .next (s.spun 1) := (step_running_fetched hs hr he hd).trans (exec_selfBranch hi)
    rw [State.spun_succ]
    exact ⟨s.spun 1, hstep, ih hs hr he hi⟩

/-- Settles O34: each step counts one instruction and one cycle and leads to the same branch. -/
theorem selfBranchDiverges : Obligations.SelfBranchDiverges := by
  intro s p e hs hr he hbranch n
  obtain hd | ⟨hd, heq⟩ := hbranch
  · exact stepsTo_spun hs hr he hd (.inl rfl) n
  · exact stepsTo_spun hs hr he hd (.inr ⟨rfl, heq⟩) n

end Sys2Proof.Machine
end

section
/-! PROOFS. MOV: its result, and the frame that all instructions without a data access share (R133, R150, R260). -/

namespace Sys2Proof.Machine

/-! ### Frames -/

/-- A register write leaves every other register. -/
theorem sameRegsBut_writeReg (s : State) (r : Reg) (v : Byte) : SameRegsBut r s (s.writeReg r v) :=
  fun q hq => s.readReg_writeReg_other r q v hq

/-- An instruction without a data access costs one cycle, leaves memory, the flags and the access counters, and leaves the rest
to the loop (R133, R260). -/
theorem exec_frame_of_no_access {i : Instr} {s t : State} (hd : dataAddress i s = none) (ht : exec i s = .next t) :
    t.cycles = s.cycles + 1 ∧ SameMemory s t ∧ SameTouched s t ∧ t.localHits = s.localHits ∧ t.ldst = s.ldst ∧
      SameControl s t := by
  obtain ⟨hmem, htouched, hcycles, hhits, hldst⟩ := exec_of_no_access hd ht
  exact ⟨hcycles, State.memRead_congr s t hmem, State.isTouched_congr s t htouched, hhits, hldst, exec_control ht⟩

/-! ### MOV (R150) -/

theorem exec_mov (rd : Reg) (imm : Byte) (s : State) :
    exec (.mov rd imm) s = .next ((s.writeReg rd imm).charge Config.costSimple).advance := rfl

/-- Settles O12: MOV writes one register, and its frame is that of an instruction without a data access. -/
theorem movLoadsTheConstant : Obligations.MovLoadsTheConstant := by
  intro rd imm s
  have ht := exec_mov rd imm s
  obtain ⟨hcycles, hmem, htouched, hhits, hldst, hcontrol⟩ := exec_frame_of_no_access rfl ht
  exact ⟨_, ht, s.readReg_writeReg_same rd imm, sameRegsBut_writeReg s rd imm, hcycles, exec_pc ht,
    exec_keeps_eq (by nofun) ht, hmem, htouched, hhits, hldst, hcontrol⟩

end Sys2Proof.Machine
end

section
/-! PROOFS. ADD and ADDI: `add8` in both readings (R162) and modulo 256 (R163), and the two instructions (R160, R161). -/

namespace Sys2Proof

/-! ### Bytes and narrowing (R8) -/

theorem s8_bounds (b : Byte) : -128 ≤ s8 b ∧ s8 b ≤ 127 := by
  have hlow := BitVec.le_toInt b
  have hhigh := BitVec.toInt_lt (x := b)
  rw [s8_eq_toInt]
  omega

/-- Narrowing is modulo 256 (R8). -/
theorem byteOfInt_add_256 (n : Int) : byteOfInt (n + 256) = byteOfInt n := by
  rw [byteOfInt_add]
  exact BitVec.add_zero _

theorem byteOfInt_sub_256 (n : Int) : byteOfInt (n - 256) = byteOfInt n := by
  rw [← byteOfInt_add_256, sub_add_cancel]

namespace Machine

/-! ### `add8` in both readings (R162) -/

theorem u8_add8 (a b : Byte) : u8 (add8 a b) = (u8 a + u8 b) % 256 := by
  rw [add8_eq_add]
  exact BitVec.toNat_add a b

/-- A signed byte value that narrows to the same byte as the signed sum is the signed reading of `add8`. -/
theorem s8_add8_of_narrows {a b : Byte} {n : Int} (hn : byteOfInt n = byteOfInt (s8 a + s8 b)) (hlow : -128 ≤ n)
    (hhigh : n ≤ 127) : s8 (add8 a b) = n := by
  rw [(addIsTheSameSignedAndUnsigned a b).2, ← hn, s8_byteOfInt hlow hhigh]

/-- Settles O10: the sum, or the sum moved by 256 into the range of a byte, narrows to the byte `add8` answers. -/
theorem addWrapsInBothReadings : Obligations.AddWrapsInBothReadings := by
  intro a b
  have ha := s8_bounds a
  have hb := s8_bounds b
  constructor
  · split_ifs with hover hunder
    · exact s8_add8_of_narrows (byteOfInt_sub_256 _) (by omega) (by omega)
    · exact s8_add8_of_narrows (byteOfInt_add_256 _) (by omega) (by omega)
    · exact s8_add8_of_narrows rfl (by omega) (by omega)
  · have hua : u8 a < 256 := a.isLt
    have hub : u8 b < 256 := b.isLt
    rw [u8_add8]
    split_ifs with h
    · exact Nat.mod_eq_of_lt (by omega)
    · omega

/-! ### The bytes under `add8` (R163) -/

/-- The inverse of R163 is the negation of 8-bit vectors. -/
theorem byteOfInt_256_sub_u8 (b : Byte) : byteOfInt (256 - (u8 b : Int)) = -b := by
  have hsum : byteOfInt (256 - (u8 b : Int)) + b = 0 := by
    calc byteOfInt (256 - (u8 b : Int)) + b = byteOfInt (256 - (u8 b : Int)) + byteOfInt (u8 b) := by rw [byteOfInt_u8]
      _ = byteOfInt 256 := by rw [← byteOfInt_add, sub_add_cancel]
      _ = 0 := byteOfInt_add_256 0
  exact eq_neg_of_add_eq_zero_left hsum

theorem iterate_add8 (a b : Byte) (n : Nat) : (fun x => add8 x b)^[n] a = a + n • b := by
  simp only [add8_eq_add, add_right_iterate]

/-- Settles O11: `add8` is the addition of 8-bit vectors, whose laws these are. -/
theorem addIsModulo256 : Obligations.AddIsModulo256 := by
  refine ⟨fun a b => ?comm, fun a b c => ?assoc, fun a => ?zero, fun b => ?inverse, u8_add8, fun a => ?cycle⟩
  case comm => rw [add8_eq_add, add8_eq_add, add_comm]
  case assoc => simp only [add8_eq_add, add_assoc]
  case zero => rw [add8_eq_add, BitVec.add_zero]
  case inverse => rw [add8_eq_add, byteOfInt_256_sub_u8, add_neg_cancel]; rfl
  case cycle =>
    have hcycle : 256 • 0x01#8 = 0x00#8 := by decide
    rw [iterate_add8, hcycle, BitVec.add_zero]

/-! ### ADD and ADDI (R160, R161) -/

theorem exec_add (ra rb : Reg) (s : State) :
    exec (.add ra rb) s = .next ((s.writeReg ra (add8 (s.readReg ra) (s.readReg rb))).charge Config.costSimple).advance := rfl

theorem exec_addi (rd : Reg) (imm : Byte) (s : State) :
    exec (.addi rd imm) s = .next ((s.writeReg rd (add8 (s.readReg rd) imm)).charge Config.costSimple).advance := rfl

/-- An instruction without a data access that only writes one register and falls through leaves everything else (R133, R260). -/
theorem exec_writeReg_effect {i : Instr} {r : Reg} {v : Byte} {s : State} (hd : dataAddress i s = none)
    (ht : exec i s = .next ((s.writeReg r v).charge Config.costSimple).advance) :
    ∃ t, exec i s = .next t ∧ t.readReg r = v ∧ SameRegsBut r s t ∧ t.cycles = s.cycles + 1 ∧ t.pc = s.pc + 1#16 ∧
      t.eq = s.eq ∧ SameMemory s t ∧ SameTouched s t ∧ t.localHits = s.localHits ∧ t.ldst = s.ldst ∧ SameControl s t := by
  obtain ⟨hcycles, hframe⟩ := exec_frame_of_no_access hd ht
  exact ⟨_, ht, s.readReg_writeReg_same r v, sameRegsBut_writeReg s r v, hcycles, rfl, rfl, hframe⟩

/-- Settles O13: ADD writes one register with the sum of the operands before the write. -/
theorem addAddsTheRegisters : Obligations.AddAddsTheRegisters :=
  fun ra rb s => exec_writeReg_effect rfl (exec_add ra rb s)

/-- Settles O14: ADDI writes one register with the sum of its old byte and the constant. -/
theorem addiAddsTheConstant : Obligations.AddiAddsTheConstant :=
  fun rd imm s => exec_writeReg_effect rfl (exec_addi rd imm s)

end Machine

end Sys2Proof
end

section
/-! PROOFS. CMP: what the compare flag says of two bytes, and the instruction (R170). -/

namespace Sys2Proof.Machine

/-- The flag's value is byte equality: the unsigned reading is injective (R170). -/
theorem compareEqual_iff (a b : Byte) : compareEqual a b = true ↔ a = b := by
  rw [compareEqual, beq_iff_eq]
  exact BitVec.toNat_inj

theorem exec_cmp (ra rb : Reg) (s : State) :
    exec (.cmp ra rb) s =
      .next ((s.setEq (compareEqual (s.readReg ra) (s.readReg rb))).charge Config.costSimple).advance := rfl

/-- Settles O15: CMP sets the flag to the equality of the two bytes, writes no register, and its frame is that of an instruction
without a data access. -/
theorem cmpSetsTheFlag : Obligations.CmpSetsTheFlag := by
  intro ra rb s
  have ht := exec_cmp ra rb s
  obtain ⟨hcycles, hframe⟩ := exec_frame_of_no_access rfl ht
  exact ⟨_, ht, compareEqual_iff (s.readReg ra) (s.readReg rb), fun _ => rfl, hcycles, exec_pc ht, hframe⟩

end Sys2Proof.Machine
end

section
/-! PROOFS. Branches: JE and JMP (R186, R187), the targets the resolver writes (R180 to R185), and that only resolved programs run (R191). -/

namespace Sys2Proof.Machine

/-! ### JE and JMP (R186, R187) -/

theorem exec_jmp (tgt : Index) (s : State) : exec (.jmp tgt) s = .next ((s.charge Config.costSimple).jump tgt) := rfl

/-- An instruction without a data access that only sets `pc` leaves everything else (R133, R260). -/
theorem exec_jump_effect {i : Instr} {p : Index} {s : State} (hd : dataAddress i s = none)
    (ht : exec i s = .next ((s.charge Config.costSimple).jump p)) :
    ∃ t, exec i s = .next t ∧ t.pc = p ∧ t.cycles = s.cycles + 1 ∧ SameRegs s t ∧ t.eq = s.eq ∧ SameMemory s t ∧
      SameTouched s t ∧ t.localHits = s.localHits ∧ t.ldst = s.ldst ∧ SameControl s t := by
  obtain ⟨hcycles, hframe⟩ := exec_frame_of_no_access hd ht
  exact ⟨_, ht, rfl, hcycles, fun _ => rfl, rfl, hframe⟩

/-- Settles O16: JE only sets `pc`, to the index that the flag chooses. -/
theorem jeBranchesOnEqual : Obligations.JeBranchesOnEqual := by
  intro tgt s
  obtain ⟨t, ht, hpc, hframe⟩ := exec_jump_effect rfl (exec_je tgt s)
  refine ⟨t, ht, fun htaken => ?_, fun hnot => ?_, hframe⟩
  · rw [hpc, nextPc, if_pos htaken]
  · rw [hpc, nextPc, hnot, if_neg Bool.false_ne_true]

/-- Settles O17: JMP only sets `pc`. -/
theorem jmpBranchesAlways : Obligations.JmpBranchesAlways :=
  fun tgt s => exec_jump_effect rfl (exec_jmp tgt s)

/-- A branch that is taken: a JMP, or a JE with the flag true. -/
def TakenBranch (tgt : Index) (i : Instr) (s : State) : Prop := i = .jmp tgt ∨ (i = .je tgt ∧ s.eq = true)

theorem exec_takenBranch {tgt : Index} {i : Instr} {s : State} (h : TakenBranch tgt i s) :
    exec i s = .next ((s.charge Config.costSimple).jump tgt) := by
  obtain rfl | ⟨rfl, heq⟩ := h
  · exact exec_jmp tgt s
  · rw [exec_je, nextPc, if_pos heq]

/-! ### The target of a line number (R181, R182) -/

/-- An image's indices and its `LEN` fit the `tgt` field, so the number written is the search's (R6, R93). -/
theorem resolveTarget_toNat {img : Image} (hlen : img.length ≤ 65535) (l : LineNo) :
    (targetIndex (resolveTarget img l)).toNat = (lineIndexFrom 0 img l).getD img.length := by
  have hfits : (lineIndexFrom 0 img l).getD img.length ≤ img.length := by
    cases h : lineIndexFrom 0 img l with
    | none => exact le_rfl
    | some j => exact (lineIndexFrom_lt h).le
  rw [targetIndex_resolveTarget, BitVec.toNat_ofNat]
  exact Nat.mod_eq_of_lt (by omega)

theorem resolveTarget_of_lowest {img : Image} {l : LineNo} {j : Nat} {e : Entry} (hlen : img.length ≤ 65535)
    (he : img[j]? = some e) (hl : e.line = l) (hmin : ∀ i f, i < j → img[i]? = some f → f.line ≠ l) :
    (targetIndex (resolveTarget img l)).toNat = j := by
  have hj : lineIndexFrom 0 img l = some j := (lineIndexFrom_eq_some 0 j img l).mpr ⟨Nat.zero_le j, ⟨e, he, hl⟩, hmin⟩
  rw [resolveTarget_toNat hlen, hj, Option.getD_some]

theorem resolveTarget_of_missing {img : Image} {l : LineNo} (hlen : img.length ≤ 65535) (h : ∀ e ∈ img, e.line ≠ l) :
    (targetIndex (resolveTarget img l)).toNat = img.length := by
  rw [resolveTarget_toNat hlen, (lineIndexFrom_eq_none 0 img l).mpr h, Option.getD_none]

/-- A later entry of the same line is never the target (R181). -/
theorem resolveTarget_ne_of_duplicate {img : Image} {i j : Nat} {e f : Entry} (hlen : img.length ≤ 65535) (hij : i < j)
    (he : img[i]? = some e) (hf : img[j]? = some f) (hef : e.line = f.line) (l : LineNo) :
    (targetIndex (resolveTarget img l)).toNat ≠ j := by
  intro htgt
  obtain ⟨k, g, hk, hg, hl, hmin⟩ | ⟨hend, -⟩ := resolveTarget_cases img l hlen
  · obtain rfl : k = j := hk.symm.trans htgt
    obtain rfl : f = g := Option.some.inj (hf.symm.trans hg)
    exact hmin i e hij he (hef.trans hl)
  · obtain ⟨hlt, -⟩ := List.getElem?_eq_some_iff.mp hf
    omega

/-- Every branch of a resolved program has a target that the resolver found for some line number (R180). -/
theorem tgtField_of_mem_resolve {p : UnresolvedProgram} {r : Entry} (hr : r ∈ (resolve p).entries)
    (hb : isBranchWord r.word = true) : ∃ l, tgtField r.word = targetIndex (resolveTarget p.entries l) := by
  obtain ⟨b, -, rfl⟩ := List.mem_map.mp hr
  rw [isBranchWord_resolveWord] at hb
  refine ⟨tgtField b.word, ?_⟩
  rw [resolveWord_of_branch hb]
  exact (withTarget_fields b.word _).2.2

/-- Settles O38: the search answers the lowest match, and an entry before the duplicate is a lower one. -/
theorem lowestMatchingLineIsTheTarget : Obligations.LowestMatchingLineIsTheTarget := by
  refine ⟨fun p k j b e hlen hk hb he hl hmin => ?_, fun p i j k e f r hlen hij he hf hef hr hb => ?_⟩
  · obtain ⟨r, hr, -, htgt⟩ := resolve_branch hk hb
    exact ⟨r, hr, htgt ▸ resolveTarget_of_lowest hlen he hl hmin⟩
  · obtain ⟨l, htgt⟩ := tgtField_of_mem_resolve (List.mem_of_getElem? hr) hb
    exact htgt ▸ resolveTarget_ne_of_duplicate hlen hij he hf hef l

/-! ### A branch to the sentinel ends the run (R134, R182, R183) -/

/-- A taken branch to `LEN` is counted, and the loop test of the next step fails. -/
theorem stepsTo_halted_of_takenBranch {s : State} {p : ResolvedProgram} {e : Entry} {i : Instr} {tgt : Index}
    (hs : s.status = .running) (hr : s.program = .resolved p) (he : p.entries[s.pc.toNat]? = some e)
    (hd : decode e.word = .ok i) (hi : TakenBranch tgt i s) (htgt : tgt.toNat = p.entries.length) :
    StepsTo 2 s ((s.countFetch.charge Config.costSimple).jump tgt).halt := by
  have hbranch : step s = .next ((s.countFetch.charge Config.costSimple).jump tgt) :=
    (step_running_fetched hs hr he hd).trans (exec_takenBranch hi)
  have hend : step ((s.countFetch.charge Config.costSimple).jump tgt) = .next _ := step_running_ended hs hr htgt.ge
  exact ⟨_, hbranch, (stepsTo_one _ _).mpr hend⟩

/-- Settles O39: the search finds nothing, so the target is `LEN`; a taken branch there halts on the next step. -/
theorem missingLineEndsTheRun : Obligations.MissingLineEndsTheRun := by
  refine ⟨fun p k b hlen hk hb hmissing => ?_, fun s p e tgt hs hr he hbranch htgt => ?_⟩
  · obtain ⟨r, hr, -, hfield⟩ := resolve_branch hk hb
    exact ⟨r, hr, hfield ▸ resolveTarget_of_missing hlen hmissing⟩
  · obtain ⟨i, hd, hi⟩ : ∃ i, decode e.word = .ok i ∧ TakenBranch tgt i s := by
      obtain hd | ⟨hd, heq⟩ := hbranch
      · exact ⟨_, hd, .inl rfl⟩
      · exact ⟨_, hd, .inr ⟨rfl, heq⟩⟩
    exact ⟨_, stepsTo_halted_of_takenBranch hs hr he hd hi htgt, rfl, rfl, rfl⟩

/-- Settles O40: a resolved target is in 0..`LEN`, the resolved program has `LEN` entries, and at `LEN` the loop test fails. -/
theorem resolvedTargetsAreInRange : Obligations.ResolvedTargetsAreInRange := by
  refine ⟨fun p e _ he hb => ⟨?_, fun hlt => ?_, fun hend => ?_⟩, fun s p hs hr hpc => ?_⟩
  · obtain ⟨l, htgt⟩ := tgtField_of_mem_resolve he hb
    exact htgt ▸ targetIndex_le _
  · exact ⟨_, List.getElem?_eq_getElem ((resolve_length p).symm ▸ hlt)⟩
  · exact List.getElem?_eq_none ((resolve_length p).trans hend.symm).le
  · exact ⟨_, step_running_ended hs hr hpc.ge, rfl, rfl⟩

/-! ### What the resolver leaves (R180, R185) -/

theorem resolve_lines (p : UnresolvedProgram) : (resolve p).entries.map (·.line) = p.entries.map (·.line) := by
  rw [resolve, List.map_map]
  rfl

/-- What becomes of a word depends on the word and the tags alone (R185). -/
theorem resolveWord_congr {img img' : Image} (h : img.map (·.line) = img'.map (·.line)) (w : IWord) :
    resolveWord img w = resolveWord img' w := by
  rw [resolveWord, resolveWord, resolveTarget_congr h]

/-- A step out of `Idle` leaves the CPU state alone: it executes nothing (R40, R185). -/
theorem step_idle_sameCpu {s t : State} (hs : s.status = .idle) (h : step s = .next t) : SameCpu s t := by
  obtain ⟨-, -, rfl⟩ | ⟨-, -, p, k, -, -, rfl⟩ | ⟨-, -, p, -, -, rfl⟩ | ⟨hrun, -⟩ | ⟨hrun, -⟩ | ⟨-, rfl⟩ := step_cases h
  · exact .refl _
  · exact ⟨rfl, rfl, rfl, rfl, rfl, rfl, rfl, rfl, rfl⟩
  · exact ⟨rfl, rfl, rfl, rfl, rfl, rfl, rfl, rfl, rfl⟩
  · cases hs.symm.trans hrun
  · cases hs.symm.trans hrun
  · exact .refl _

/-- Settles O41: the resolver maps each entry by its own word and the image's tags, and the start executes no instruction. -/
theorem resolverWritesTargetsOnly : Obligations.ResolverWritesTargetsOnly := by
  refine ⟨resolve_lines, fun p k e r he hr => ?_, fun p q k htags hk => ?_, fun s t hs h => ?_⟩
  · rw [resolve_getElem?, he] at hr
    obtain rfl := Option.some.inj hr
    obtain ⟨hop, hmbz⟩ := resolveWord_fields p.entries e.word
    exact ⟨hop, hmbz, resolveWord_of_other⟩
  · simp only [resolve_getElem?, hk, resolveWord_congr htags]
  · have hsame := step_idle_sameCpu hs h
    exact ⟨hsame.regs, hsame.eq, hsame.mem, hsame.touched, hsame.instret, hsame.cycles, hsame.localHits, hsame.ldst⟩

/-! ### Only resolved programs run (R45, R184, R191) -/

theorem step_running_unresolved {s : State} {p : UnresolvedProgram} (hs : s.status = .running)
    (hu : s.program = .unresolved p) : step s = .fault .wrongForm := by
  simp [step, hs, hu]

theorem step_idle_resolved {s : State} {p : ResolvedProgram} (hs : s.status = .idle) (hp : s.startPending = true)
    (hr : s.program = .resolved p) : step s = .fault .wrongForm := by
  simp [step, hs, idleStep, hp, hr]

/-- The host keeps the instruction store or leaves it unresolved: reset and a load write that form (R45). -/
theorem hostApply_program {h : HostInput} {s t : State} (hx : hostApply h s = .next t) :
    t.program = s.program ∨ ∃ p, t.program = .unresolved p := by
  obtain ⟨-, rfl⟩ | ⟨-, rfl⟩ | ⟨img, -, -, -, rfl⟩ | ⟨-, -, rfl⟩ := hostApply_cases hx
  · exact .inr ⟨_, rfl⟩
  · exact .inl rfl
  · exact .inr ⟨_, rfl⟩
  · exact .inl rfl

/-- A resolved program stood there before, or the resolver made it in the step out of `Idle` (R191). -/
theorem react_resolved {e : Event} {s t : State} {p : ResolvedProgram} (hx : react e s = .next t)
    (ht : t.program = .resolved p) :
    s.program = .resolved p ∨ (e = .clock ∧ s.status = .idle ∧ ∃ q, s.program = .unresolved q ∧ p = resolve q) := by
  cases e with
  | clock =>
    obtain hsame | ⟨hs, q, hu, hres⟩ := step_program hx
    · exact .inl (hsame.symm.trans ht)
    · exact .inr ⟨rfl, hs, q, hu, Program.resolved.inj (ht.symm.trans hres)⟩
  | host input =>
    obtain hsame | ⟨q, hu⟩ := hostApply_program hx
    · exact .inl (hsame.symm.trans ht)
    · cases ht.symm.trans hu

/-- A resolved program in a valid image decodes to resolved instructions, word by word (R183, R191). -/
theorem exists_resolved_program {s : State} (hform : Program.isResolved s.program = true)
    (hok : Image.resolvedOk s.image = true) :
    ∃ p, s.program = .resolved p ∧ ∀ e ∈ p.entries, ∃ i : ResolvedInstr p.entries.length, decode e.word = .ok i.instr := by
  obtain ⟨p, hr⟩ := (isResolved_eq_true s.program).mp hform
  rw [image_of_resolved hr] at hok
  refine ⟨p, hr, fun e he => ?_⟩
  obtain ⟨i, hd, hwf⟩ := (resolvedOk_iff p.entries).mp hok e he
  exact ⟨⟨i, hwf⟩, hd⟩

/-- Settles O60: the two wrong forms fault, `react_resolved` says where a resolved program comes from, and the invariant of each
phase gives the store's form. -/
theorem onlyResolvedProgramsRun : Obligations.OnlyResolvedProgramsRun := by
  refine ⟨fun s p => step_running_unresolved, fun s p => step_idle_resolved, fun e s t p => react_resolved, fun s h => ?_⟩
  obtain ⟨-, -, -, hphase⟩ := inv_of_reachable h
  constructor
  · rintro (hs | hs)
    · obtain ⟨hform, hok, -⟩ := (phaseInv_running hs).mp hphase
      exact exists_resolved_program hform hok
    · obtain ⟨hform, hok, -⟩ := (phaseInv_halted hs).mp hphase
      exact exists_resolved_program hform hok
  · rintro (hs | hs)
    · obtain ⟨-, hform⟩ := (phaseInv_idle hs).mp hphase
      exact (isResolved_eq_false s.program).mp hform
    · obtain ⟨-, hform, -⟩ := (phaseInv_rejected hs).mp hphase
      exact (isResolved_eq_false s.program).mp hform

end Sys2Proof.Machine
end

section
/-! PROOFS. LD and ST: the frame that the two instructions with a data access share (R54, R133), and the two instructions (R200, R201). -/

namespace Sys2Proof.Machine

/-! ### The frame of a data access -/

/-- An access to a cold address costs 50 cycles and is no hit (R54, R56). -/
theorem exec_cold_cost {i : Instr} {s t : State} {a : Nat} (hd : dataAddress i s = some a) (hc : s.isTouched a = false)
    (ht : exec i s = .next t) : t.cycles = s.cycles + 50 ∧ t.localHits = s.localHits := by
  obtain ⟨-, -, hcycles, hhits, -⟩ := exec_of_access hd ht
  simp [hcycles, hhits, hc, Config.costCold]

/-- An executed access sets the flag of its address and no other (R54, R56). -/
theorem exec_isTouched_of_access {i : Instr} {s t : State} {a : Nat} (hd : dataAddress i s = some a)
    (ht : exec i s = .next t) (c : Nat) : t.isTouched c = (decide (c = a) || s.isTouched c) := by
  obtain ⟨-, htouched, -⟩ := exec_of_access hd ht
  rw [State.isTouched_congr _ _ htouched, State.isTouched_touch]

/-- An instruction with a data access counts it, at the cost of its address's flag, and sets that flag (R54). -/
theorem exec_frame_of_access {i : Instr} {s t : State} {a : Nat} (hd : dataAddress i s = some a) (ht : exec i s = .next t) :
    t.ldst = s.ldst + 1 ∧ (s.isTouched a = true → t.cycles = s.cycles + 2 ∧ t.localHits = s.localHits + 1) ∧
      (s.isTouched a = false → t.cycles = s.cycles + 50 ∧ t.localHits = s.localHits) ∧
      ∀ c, t.isTouched c = (decide (c = a) || s.isTouched c) := by
  obtain ⟨-, -, -, -, hldst⟩ := exec_of_access hd ht
  exact ⟨hldst.trans (s.touch_ldst a), fun hw => exec_warm_cost hd hw ht, fun hc => exec_cold_cost hd hc ht,
    exec_isTouched_of_access hd ht⟩

/-! ### LD (R200) -/

/-- LD writes no register but its destination. -/
theorem exec_ld_sameRegsBut {ra rb : Reg} {s t : State} (ht : exec (.ld ra rb) s = .next t) : SameRegsBut ra s t := by
  intro q hq
  cases ht
  rw [State.readReg_advance, State.readReg_writeReg_other _ _ _ _ hq, State.readReg_touch]

/-- LD writes no byte of memory. -/
theorem exec_ld_sameMemory {ra rb : Reg} {s t : State} (ht : exec (.ld ra rb) s = .next t) : SameMemory s t := by
  intro c
  cases ht
  simp

/-- Settles O18: LD writes one register with the addressed byte, and its frame is that of an instruction with a data access. -/
theorem ldLoadsTheByte : Obligations.LdLoadsTheByte := by
  intro ra rb s
  obtain ⟨t, ht, hcontrol⟩ := exec_total (.ld ra rb) s
  obtain ⟨hldst, hwarm, hcold, htouched⟩ := exec_frame_of_access rfl ht
  exact ⟨t, ht, exec_ld_dest ht, exec_ld_sameRegsBut ht, exec_pc ht, hldst, hwarm, hcold, htouched,
    exec_keeps_eq (by nofun) ht, exec_ld_sameMemory ht, hcontrol⟩

/-! ### ST (R201) -/

/-- ST leaves every byte but the one at its address (R203). -/
theorem exec_st_memRead_other {ra rb : Reg} {s t : State} {c : Nat} (hc : c ≠ s.effAddr ra)
    (ht : exec (.st ra rb) s = .next t) : t.memRead c = s.memRead c := by
  cases ht
  rw [State.memRead_advance, State.memRead_memWrite_other _ _ _ _ hc, State.memRead_touch]

/-- Settles O19: ST writes the byte at its address, and its frame is that of an instruction with a data access. -/
theorem stStoresTheByte : Obligations.StStoresTheByte := by
  intro ra rb s hm
  obtain ⟨t, ht, hcontrol⟩ := exec_total (.st ra rb) s
  obtain ⟨hldst, hwarm, hcold, htouched⟩ := exec_frame_of_access rfl ht
  refine ⟨t, ht, rfl, ?_, exec_st_readReg ht, exec_pc ht, hldst, hwarm, hcold, htouched, exec_keeps_eq (by nofun) ht, hcontrol⟩
  rintro a rfl
  exact ⟨exec_st_memRead hm ht, fun c hc => exec_st_memRead_other hc ht⟩

end Sys2Proof.Machine
end

section
/-! PROOFS. The machine's one exception: validation on the start (R221, R225), the reachable `Rejected` states (R226), and in which
phase the host can read a report or a rejection (R228, R235). -/

namespace Sys2Proof.Machine

/-! ### Rejection -/

/-- Settles O35: validation finds `k`, so the start is taken and `Malformed` raised at `k`. -/
theorem invalidImageIsRejected : Obligations.InvalidImageIsRejected := by
  intro s p k e hs hp hu he hinvalid hbelow
  have hk : firstInvalid p.entries = some k := (firstInvalid_eq_some k p.entries).mpr ⟨⟨e, he, hinvalid⟩, hbelow⟩
  rw [step_idle_start hs hp hu, startRun_invalid hk]
  rfl

/-- Settles O53: the invariant's part for `Rejected` says that the CPU state is at reset and that `rej_index` is what validation
found. -/
theorem rejectionRunsNothing : Obligations.RejectionRunsNothing := by
  intro s h hs
  obtain ⟨-, -, -, hphase⟩ := inv_of_reachable h
  obtain ⟨hcpu, -, hfirst, -⟩ := (phaseInv_rejected hs).mp hphase
  exact ⟨hcpu, (firstInvalid_eq_some s.rejIndex s.image).mp hfirst⟩

/-! ### What the host reads -/

theorem report_of_halted {s : State} (h : s.status = .halted) :
    report s = some ⟨s.instret, s.cycles, s.localHits, s.ldst⟩ := by
  simp only [report, h]

theorem report_of_not_halted {s : State} (h : s.status ≠ .halted) : report s = none := by
  cases hs : s.status with
  | halted => exact absurd hs h
  | idle | running | rejected => simp only [report, hs]

theorem rejection_of_rejected {s : State} (h : s.status = .rejected) :
    rejection s = some (s.rejIndex, s.imem s.rejIndex) := by
  simp only [rejection, h]

theorem rejection_of_not_rejected {s : State} (h : s.status ≠ .rejected) : rejection s = none := by
  cases hs : s.status with
  | rejected => exact absurd hs h
  | idle | running | halted => simp only [rejection, hs]

/-- The report can be read in `Halted` only, and is the four counters (R235, R236). -/
theorem report_eq_some (s : State) (r : Report) :
    report s = some r ↔ s.status = .halted ∧ r = ⟨s.instret, s.cycles, s.localHits, s.ldst⟩ := by
  by_cases h : s.status = .halted
  · simp [report_of_halted h, h, eq_comm]
  · simp [report_of_not_halted h, h]

/-- A rejection can be read in `Rejected` only (R222, R235). -/
theorem rejection_isSome (s : State) : (rejection s).isSome = true ↔ s.status = .rejected := by
  by_cases h : s.status = .rejected
  · simp [rejection_of_rejected h, h]
  · simp [rejection_of_not_rejected h, h]

/-- Settles O54: `report` and `rejection` answer in one phase each. -/
theorem reportOnlyAfterAHalt : Obligations.ReportOnlyAfterAHalt :=
  ⟨report_eq_some, rejection_isSome⟩

end Sys2Proof.Machine
end

section
/-! PROOFS. Reset and hazards: the reset values (R250), the charges of a step (R260), and that an assembled image passes validation (R255). -/

namespace Sys2Proof.Machine

/-! ### The reset state (R250) -/

theorem readReg_reset (r : Reg) : State.reset.readReg r = 0x00#8 :=
  Vector.getElem_replicate r.isLt

/-- Settles O43: `State.reset` writes these values, and an address that is not listed reads as 0x00 and cold. -/
theorem resetValues : Obligations.ResetValues :=
  ⟨readReg_reset, rfl, rfl, fun _ => rfl, fun _ => rfl, rfl, rfl, rfl, rfl, rfl⟩

/-- Settles O44: the base case of the invariant's induction over the reachable states. -/
theorem resetHasTheInvariant : Obligations.ResetHasTheInvariant := inv_reset

/-! ### The charges of a step (R260) -/

/-- Validation, resolution and waiting leave the CPU state: only a Running machine executes (R185, R260). -/
theorem step_sameCpu_of_not_running {s t : State} (hs : s.status ≠ .running) (h : step s = .next t) : SameCpu s t := by
  cases hst : s.status with
  | idle => exact step_idle_sameCpu hst h
  | running => exact absurd hst hs
  | halted | rejected =>
    obtain rfl : s = t := by simpa [step_of_stopped (s := s) (by simp [hst])] using h
    exact .refl s

/-- A step that ends Halted executes nothing: an instruction keeps `status`, so it would have begun Halted (R134, R135). -/
theorem step_sameCpu_of_halted {s t : State} (ht : t.status = .halted) (h : step s = .next t) : SameCpu s t := by
  obtain hsame | ⟨i, hx⟩ := step_sameCpu_or_exec h
  · exact hsame
  · obtain ⟨-, hstatus, -⟩ := exec_control hx
    have hs : s.status = .halted := hstatus.symm.trans ht
    exact step_sameCpu_of_not_running (by simp [hs]) h

/-- Settles O23: an instruction's charge goes by its data access, and a step that executes nothing leaves `cycles`. -/
theorem costTable : Obligations.CostTable := by
  refine ⟨fun i s t ht => ?_, fun s t hs h => (step_sameCpu_of_not_running hs h).cycles,
    fun s t h ht => (step_sameCpu_of_halted ht h).cycles⟩
  cases hd : dataAddress i s with
  | none =>
    obtain ⟨-, -, hcycles, -⟩ := exec_of_no_access hd ht
    exact hcycles
  | some a =>
    obtain ⟨-, -, hcycles, -⟩ := exec_of_access hd ht
    exact hcycles.trans (s.touch_cycles a)

/-! ### An assembled image (R255) -/

/-- The word of a parsed line is the encoding of its instruction (R103 to R114). -/
theorem parseLine_encodes {p : ImmPolicy} {line : List Char} {e : Entry} (h : parseLine p line = .ok (some e)) :
    ∃ i, e.word = encode i := by
  rw [parseLine] at h
  match hts : tokens line with
  | [] => simp [hts, parseTokens] at h
  | [n] => cases hl : lineToken n <;> simp [hts, parseTokens, hl] at h
  | n :: kw :: ops =>
    cases hl : lineToken n with
    | none => simp [hts, parseTokens, hl] at h
    | some l =>
      cases hk : keywordToken kw with
      | none => simp [hts, parseTokens, hl, hk] at h
      | some k =>
        cases ho : parseOperands p k ops with
        | error why => simp [hts, parseTokens, hl, hk, ho] at h
        | ok i =>
          obtain rfl : ⟨encode i, l⟩ = e := by simpa [hts, parseTokens, hl, hk, ho] using h
          exact ⟨i, rfl⟩

/-- The image of some lines is that of the lines after a blank first one, or begins with the first line's entry (R100). -/
theorem assembleFrom_cons_image {p : ImmPolicy} {position : Nat} {l : List Char} {rest : List (List Char)} {img : Image}
    (h : assembleFrom p position (l :: rest) = .image img) :
    (parseLine p l = .ok none ∧ assembleFrom p (position + 1) rest = .image img) ∨
    ∃ e tail, parseLine p l = .ok (some e) ∧ assembleFrom p (position + 1) rest = .image tail ∧ img = e :: tail := by
  rw [assembleFrom] at h
  cases hl : parseLine p l with
  | error why => simp [hl] at h
  | ok r =>
    cases r with
    | none => exact .inl ⟨rfl, by simpa [hl] using h⟩
    | some e =>
      cases hrest : assembleFrom p (position + 1) rest with
      | image tail => exact .inr ⟨e, tail, rfl, rfl, by simpa [hl, hrest, eq_comm] using h⟩
      | rejected k raw why => simp [hl, hrest] at h
      | tooLong => simp [hl, hrest] at h

/-- Every entry of an assembled image was parsed from one of the lines (R100). -/
theorem exists_line_of_mem_assembleFrom {p : ImmPolicy} {position : Nat} {lines : List (List Char)} {img : Image} {e : Entry}
    (h : assembleFrom p position lines = .image img) (he : e ∈ img) : ∃ l ∈ lines, parseLine p l = .ok (some e) := by
  induction lines generalizing position img with
  | nil =>
    cases h
    cases he
  | cons l rest ih =>
    obtain ⟨-, hrest⟩ | ⟨f, tail, hl, hrest, rfl⟩ := assembleFrom_cons_image h
    · obtain ⟨m, hm, hparse⟩ := ih hrest he
      exact ⟨m, List.mem_cons_of_mem l hm, hparse⟩
    · obtain rfl | he := List.mem_cons.mp he
      · exact ⟨l, List.mem_cons_self, hl⟩
      · obtain ⟨m, hm, hparse⟩ := ih hrest he
        exact ⟨m, List.mem_cons_of_mem l hm, hparse⟩

/-- Lines that assemble to an image have it from `assembleFrom`, and it has a legal length (R6, U9). -/
theorem assembleLines_image {p : ImmPolicy} {lines : List (List Char)} {img : Image} (h : assembleLines p lines = .image img) :
    assembleFrom p 0 lines = .image img ∧ Image.lengthOk img = true := by
  unfold assembleLines at h
  cases hfrom : assembleFrom p 0 lines with
  | image img' =>
    by_cases hlen : Image.lengthOk img' = true
    · obtain rfl : img' = img := by simpa [hfrom, hlen] using h
      exact ⟨rfl, hlen⟩
    · simp [hfrom, hlen] at h
  | rejected k raw why => simp [hfrom] at h
  | tooLong => simp [hfrom] at h

/-- An image of encoded words is valid: the encoding of an instruction decodes (R82, R221). -/
theorem firstInvalid_of_encoded {img : Image} (h : ∀ e ∈ img, ∃ i, e.word = encode i) : firstInvalid img = none := by
  refine (firstInvalid_eq_none img).mpr fun e he => ?_
  obtain ⟨i, hi⟩ := h e he
  exact (isInvalid_eq_false e.word).mpr ⟨i, hi ▸ decodeOfEncode i⟩

/-- Settles O56: every entry was parsed from a line, so its word is an encoding, and encodings are valid. -/
theorem assembledImagesAreValid : Obligations.AssembledImagesAreValid := by
  intro p text img h
  obtain ⟨hfrom, hlen⟩ := assembleLines_image h
  have hencoded : ∀ e ∈ img, ∃ i, e.word = encode i := fun e he => by
    obtain ⟨l, -, hl⟩ := exists_line_of_mem_assembleFrom hfrom he
    exact parseLine_encodes hl
  exact ⟨firstInvalid_of_encoded hencoded, (lengthOk_eq_true img).mp hlen, hencoded⟩

end Sys2Proof.Machine
end
